-- ==== Sys2Proof/Word.lean ====
section
/-! DEFINITION. The word types of the machine and the two readings of a bit pattern (00_scope.md R9, R10). -/

namespace Sys2Proof

/-- A Word: 32 bits, the width of an instruction, of a memory cell and of a register value (R8, R14, R21). -/
abbrev Word := BitVec 32

/-- A register index: 4 bits at every port of the register file (R26). -/
abbrev RegIdx := BitVec 4

/-- A mask over the four condition flags M, Z, P, V: the width of `cond` and of the predicate field (R8, R30). -/
abbrev Flags := BitVec 4

/-- `bits_32(z)`: the 32-bit pattern of an integer (R10). -/
abbrev bits32 (z : Int) : Word := BitVec.ofInt 32 z

/-- `sint_32(v)`: the two's-complement reading of a 32-bit pattern (R10). -/
abbrev sint32 (v : Word) : Int := v.toInt

end Sys2Proof
end

