-- ==== Sys2Proof/Syntax.lean ====
section
/-! DEFINITION. The opcodes and the decoded instruction (30_encoding.md R75, 41_codec.md R113). -/

namespace Sys2Proof

/-- The closed set of seven operations (R75). -/
inductive Opcode where
  | halt
  | load
  | store
  | add
  | sub
  | mul
  | div
deriving DecidableEq, Repr

/-- The seven opcodes in the order of spec/opcode_table.json. -/
def Opcode.all : List Opcode := [.halt, .load, .store, .add, .sub, .mul, .div]

/-- A decoded instruction (R113): one constructor per row of the opcode table, each with the predicate mask,
`reg_target`, `reg_src1`, `reg_src2` and the offset. The register and predicate ports are 4 bits wide; the offset is
an integer wider than its field, so that a value `encode` must refuse can be presented (48_interfaces.md R208). -/
inductive Instr where
  /-- HALT, stop the run (R200). -/
  | halt (pred : Flags) (rt rs1 rs2 : RegIdx) (off : Int)
  /-- LOAD, load a Word (R190). -/
  | load (pred : Flags) (rt rs1 rs2 : RegIdx) (off : Int)
  /-- STORE, store a Word (R191). -/
  | store (pred : Flags) (rt rs1 rs2 : RegIdx) (off : Int)
  /-- ADD, add (R180). -/
  | add (pred : Flags) (rt rs1 rs2 : RegIdx) (off : Int)
  /-- SUB, subtract (R181). -/
  | sub (pred : Flags) (rt rs1 rs2 : RegIdx) (off : Int)
  /-- MUL, multiply (R182). -/
  | mul (pred : Flags) (rt rs1 rs2 : RegIdx) (off : Int)
  /-- DIV, divide (R183). -/
  | div (pred : Flags) (rt rs1 rs2 : RegIdx) (off : Int)
deriving DecidableEq, Repr

/-- The instruction with a given opcode and the five operand fields of the one format (R71). -/
def Instr.ofFields (op : Opcode) (pred : Flags) (rt rs1 rs2 : RegIdx) (off : Int) : Instr :=
  match op with
  | .halt => .halt pred rt rs1 rs2 off
  | .load => .load pred rt rs1 rs2 off
  | .store => .store pred rt rs1 rs2 off
  | .add => .add pred rt rs1 rs2 off
  | .sub => .sub pred rt rs1 rs2 off
  | .mul => .mul pred rt rs1 rs2 off
  | .div => .div pred rt rs1 rs2 off

/-- The opcode of an instruction. -/
def Instr.opcode : Instr → Opcode
  | .halt .. => .halt
  | .load .. => .load
  | .store .. => .store
  | .add .. => .add
  | .sub .. => .sub
  | .mul .. => .mul
  | .div .. => .div

/-- The `predicate` field. -/
def Instr.pred : Instr → Flags
  | .halt p _ _ _ _ => p
  | .load p _ _ _ _ => p
  | .store p _ _ _ _ => p
  | .add p _ _ _ _ => p
  | .sub p _ _ _ _ => p
  | .mul p _ _ _ _ => p
  | .div p _ _ _ _ => p

/-- The `reg_target` field. -/
def Instr.rt : Instr → RegIdx
  | .halt _ t _ _ _ => t
  | .load _ t _ _ _ => t
  | .store _ t _ _ _ => t
  | .add _ t _ _ _ => t
  | .sub _ t _ _ _ => t
  | .mul _ t _ _ _ => t
  | .div _ t _ _ _ => t

/-- The `reg_src1` field. -/
def Instr.rs1 : Instr → RegIdx
  | .halt _ _ a _ _ => a
  | .load _ _ a _ _ => a
  | .store _ _ a _ _ => a
  | .add _ _ a _ _ => a
  | .sub _ _ a _ _ => a
  | .mul _ _ a _ _ => a
  | .div _ _ a _ _ => a

/-- The `reg_src2` field. -/
def Instr.rs2 : Instr → RegIdx
  | .halt _ _ _ b _ => b
  | .load _ _ _ b _ => b
  | .store _ _ _ b _ => b
  | .add _ _ _ b _ => b
  | .sub _ _ _ b _ => b
  | .mul _ _ _ b _ => b
  | .div _ _ _ b _ => b

/-- The `offset` field. -/
def Instr.off : Instr → Int
  | .halt _ _ _ _ o => o
  | .load _ _ _ _ o => o
  | .store _ _ _ _ o => o
  | .add _ _ _ _ o => o
  | .sub _ _ _ _ o => o
  | .mul _ _ _ _ o => o
  | .div _ _ _ _ o => o

/-- An unchecked instruction record, as a caller of `encode` may present it (41_codec.md R114, R115): every field an
integer of any size, and `opcode` is `none` when what the caller names is not one of the seven mnemonics. -/
structure InstrRecord where
  opcode    : Option Opcode
  predicate : Int
  regTarget : Int
  regSrc1   : Int
  regSrc2   : Int
  offset    : Int
deriving DecidableEq, Repr

/-- The record of a decoded instruction (R113). -/
def Instr.toRecord (i : Instr) : InstrRecord where
  opcode    := some i.opcode
  predicate := i.pred.toNat
  regTarget := i.rt.toNat
  regSrc1   := i.rs1.toNat
  regSrc2   := i.rs2.toNat
  offset    := i.off

end Sys2Proof
end

