-- ==== Sys2Proof/Config.lean ====
section
/-! DEFINITION. The open parameters of the hardware (00_scope.md R8, 92_eei_decisions.md) and the one free value. -/

namespace Sys2Proof

/-- An `OPCODE_MAP`: a 6-bit number for each of the seven mnemonics, no two alike (R8, R76: "an injective function from
the seven mnemonics to 0..63"). `OpcodeMap.number` in Decode.lean reads it. -/
structure OpcodeMap where
  halt     : BitVec 6
  load     : BitVec 6
  store    : BitVec 6
  add      : BitVec 6
  sub      : BitVec 6
  mul      : BitVec 6
  div      : BitVec 6
  distinct : [halt, load, store, add, sub, mul, div].Nodup
deriving DecidableEq, Repr

/-- The open parameters that the hardware is configured with, "fixed for the life of the hardware" (R8, R38;
92_eei_decisions.md, open parameters). The two others, `MEM_WORDS` and `MEM_INIT`, are the capacity of the memory and
its contents. -/
structure Parameters where
  /-- `START_ADDR`, the program counter after every reset (R41, R261). -/
  startAddr : Word
  /-- `OPCODE_MAP` (R76). -/
  opcodes   : OpcodeMap
deriving DecidableEq, Repr

/-- The default of `START_ADDR`: "configurable start address (default 0)" (R41, R261). `State.reset` is configured with
it; every other definition takes the machine's own (log entry 5). -/
def Config.startAddr : Word := 0#32

/-- `MEM_WORDS` of the memory that `State.reset` carries. The spec leaves it open, 1 to 2^31 (R52). DESIGN CHOICE: the
largest capacity the spec allows; unsafe for a claim about `State.reset` alone (log entry 3). -/
def Config.memWords : Nat := 2 ^ 31

/-- `MEM_INIT` at the cells nobody loaded: an arbitrary Word at each address, fixed for the run, "it must not assume
zero" (20_memory.md R62). A free value: no proof can see what it is. Safe (log entry 2). -/
opaque Config.memInit : Nat → Word

end Sys2Proof
end

