-- ==== Sys2Proof/Machine/BitField.lean ====
section
/-! DEFINITION. The BitField unit (40_bitfield.md R90 to R102): extract, extract_signed, insert and sign_extend over a
32-bit Word. Pure functions, no machine state. -/

namespace Sys2Proof.Machine

/-- A BitField: the inclusive bit range `fromBit` to `toBit` of a Word, with its validity (R90). -/
structure BitField where
  fromBit : Nat
  toBit   : Nat
  valid   : fromBit ≤ toBit ∧ toBit ≤ 31
deriving DecidableEq, Repr

/-- The checked construction: a pair outside the range is no BitField and gives `none` (R92). -/
def BitField.make? (lo hi : Int) : Option BitField :=
  if h : 0 ≤ lo ∧ lo ≤ hi ∧ hi ≤ 31 then
    some { fromBit := lo.toNat, toBit := hi.toNat, valid := ⟨by omega, by omega⟩ }
  else none

/-- The number of bits of the field (R90). -/
def BitField.width (f : BitField) : Nat := f.toBit - f.fromBit + 1

/-- The low mask: the low `width` bits set, computed without a 32-bit limit (R91). -/
def BitField.lowmask (f : BitField) : Nat := (1 <<< f.width) - 1

/-- The in-place mask: exactly the field's bits of a Word set (R91). -/
def BitField.posmask (f : BitField) : Word := BitVec.ofNat 32 (f.lowmask <<< f.fromBit)

/-- `extract`: the field's bits in the low-order position, unsigned (R93). -/
def BitField.extract (f : BitField) (w : Word) : Nat := (w.toNat >>> f.fromBit) &&& f.lowmask

/-- `extract_signed`: the field read as a two's-complement number of its own width (R95). -/
def BitField.extractSigned (f : BitField) (w : Word) : Int :=
  if f.extract w &&& (1 <<< (f.width - 1)) ≠ 0 then (f.extract w : Int) - ((1 <<< f.width : Nat) : Int)
  else (f.extract w : Int)

/-- `insert`: the field replaced by the low bits of `value`, every other bit of `w` kept; a value too wide is truncated
(R98, by the corrected formula of 90_conflicts.md C2). -/
def BitField.insert (f : BitField) (value : Int) (w : Word) : Word :=
  (w &&& ~~~f.posmask) ||| BitVec.ofNat 32 (((bits32 value).toNat &&& f.lowmask) <<< f.fromBit)

/-- `sign_extend`: a raw field value of a given width read as two's complement; no value outside
2 ≤ width ≤ 32 and field < 2^width (R100, 93_implementation_defined.md U3). -/
def signExtend? (field width : Nat) : Option Int :=
  if 2 ≤ width ∧ width ≤ 32 ∧ field < 1 <<< width then
    some (if field &&& (1 <<< (width - 1)) ≠ 0 then (field : Int) - ((1 <<< width : Nat) : Int) else (field : Int))
  else none

/-- Bits 31 to 26, the opcode (R71). -/
def opcodeField : BitField := { fromBit := 26, toBit := 31, valid := by decide }

/-- Bits 25 to 22, the predicate (R71). -/
def predicateField : BitField := { fromBit := 22, toBit := 25, valid := by decide }

/-- Bits 21 to 18, reg_target (R71). -/
def regTargetField : BitField := { fromBit := 18, toBit := 21, valid := by decide }

/-- Bits 17 to 14, reg_src1 (R71). -/
def regSrc1Field : BitField := { fromBit := 14, toBit := 17, valid := by decide }

/-- Bits 13 to 10, reg_src2 (R71). -/
def regSrc2Field : BitField := { fromBit := 10, toBit := 13, valid := by decide }

/-- Bits 9 to 0, the signed offset (R71, R73). -/
def offsetField : BitField := { fromBit := 0, toBit := 9, valid := by decide }

end Sys2Proof.Machine
end

