-- ==== Sys2Proof/WellFormed.lean ====
section
/-! DEFINITION. Which instructions and records are representable in the 32-bit format (41_codec.md R113, R115). -/

namespace Sys2Proof

/-- An integer is in the 10-bit signed range of the offset field (R73). -/
def offsetInRange (off : Int) : Bool := decide (-512 ≤ off) && decide (off ≤ 511)

/-- An integer is in the range of a 4-bit field: a register index or a predicate mask (R79). -/
def fourBitInRange (v : Int) : Bool := decide (0 ≤ v) && decide (v ≤ 15)

/-- An instruction is representable when its offset is: the other fields have the width of their ports (R113, R208). -/
def Instr.wellFormed (i : Instr) : Bool := offsetInRange i.off

/-- A record is representable when it names one of the seven mnemonics and each field is in its range (R115). -/
def InstrRecord.wellFormed (r : InstrRecord) : Bool :=
  r.opcode.isSome && fourBitInRange r.predicate && fourBitInRange r.regTarget
    && fourBitInRange r.regSrc1 && fourBitInRange r.regSrc2 && offsetInRange r.offset

end Sys2Proof
end

