-- ==== Sys2Proof/Decode.lean ====
section
/-! DEFINITION. The opcode map (30_encoding.md R76) and the instruction word codec: decode and encode with their
failures (41_codec.md R110 to R115). -/

namespace Sys2Proof

open Sys2Proof.Machine

/-- The number an opcode map assigns to a mnemonic (R76). -/
def OpcodeMap.number (m : OpcodeMap) : Opcode → BitVec 6
  | .halt => m.halt
  | .load => m.load
  | .store => m.store
  | .add => m.add
  | .sub => m.sub
  | .mul => m.mul
  | .div => m.div

/-- The default `OPCODE_MAP` of R76. UNVERIFIED: the spec takes the numbers from general knowledge (its decision D5);
the codec below takes the map as an argument, and the step takes the machine's own. Unsafe only for claims about
particular numbers (log entry 6). -/
def opcodeMap : OpcodeMap where
  halt     := 0
  load     := 1
  store    := 2
  add      := 3
  sub      := 5
  mul      := 6
  div      := 7
  distinct := by decide

/-- The mnemonic whose number is `n`, if the map has one (R110). -/
def opcodeOf (m : OpcodeMap) (n : BitVec 6) : Option Opcode := Opcode.all.find? fun op => m.number op == n

/-- Why a Word does not decode. -/
inductive DecodeError where
  /-- The opcode field holds a number of no mnemonic: the only way decode can fail (R111). -/
  | unrecognisedOpcode (n : BitVec 6)
deriving DecidableEq, Repr

/-- `decode` under an opcode map (R110, R111): each field through its BitField, the predicate taken as it stands
(R112). -/
def decodeWith (m : OpcodeMap) (w : Word) : Except DecodeError Instr :=
  match opcodeOf m (BitVec.ofNat 6 (opcodeField.extract w)) with
  | none => .error (.unrecognisedOpcode (BitVec.ofNat 6 (opcodeField.extract w)))
  | some op =>
    .ok (Instr.ofFields op
      (BitVec.ofNat 4 (predicateField.extract w))
      (BitVec.ofNat 4 (regTargetField.extract w))
      (BitVec.ofNat 4 (regSrc1Field.extract w))
      (BitVec.ofNat 4 (regSrc2Field.extract w))
      (offsetField.extractSigned w))

/-- `decode` under the default opcode map. -/
def decode (w : Word) : Except DecodeError Instr := decodeWith opcodeMap w

/-- Why a record does not encode (R115): the first failing check. -/
inductive EncodeError where
  /-- The caller names none of the seven mnemonics. -/
  | unknownOpcode
  /-- The predicate is outside 0 to 15. -/
  | predicateOutOfRange
  /-- A register index is outside 0 to 15. -/
  | registerOutOfRange
  /-- The offset is outside -512 to 511. -/
  | offsetOutOfRange
deriving DecidableEq, Repr

/-- The Word of R114: each field at its fixed position. -/
def encodeFields (m : OpcodeMap) (op : Opcode) (pred : Flags) (rt rs1 rs2 : RegIdx) (off : Int) : Word :=
  ((m.number op).zeroExtend 32 <<< 26) ||| (pred.zeroExtend 32 <<< 22) ||| (rt.zeroExtend 32 <<< 18)
    ||| (rs1.zeroExtend 32 <<< 14) ||| (rs2.zeroExtend 32 <<< 10) ||| (BitVec.ofInt 10 off).zeroExtend 32

/-- `encode` under an opcode map (R114, R115): of the checks only the offset's can fail on an `Instr`, whose other
fields have the width of their ports (48_interfaces.md R208). -/
def encodeWith (m : OpcodeMap) (i : Instr) : Except EncodeError Word :=
  if offsetInRange i.off then .ok (encodeFields m i.opcode i.pred i.rt i.rs1 i.rs2 i.off)
  else .error .offsetOutOfRange

/-- `encode` under the default opcode map. -/
def encode (i : Instr) : Except EncodeError Word := encodeWith opcodeMap i

/-- `encode` of an unchecked record, with every check of R115. -/
def encodeRecordWith (m : OpcodeMap) (r : InstrRecord) : Except EncodeError Word :=
  match r.opcode with
  | none => .error .unknownOpcode
  | some op =>
    if !fourBitInRange r.predicate then .error .predicateOutOfRange
    else if !(fourBitInRange r.regTarget && fourBitInRange r.regSrc1 && fourBitInRange r.regSrc2) then
      .error .registerOutOfRange
    else if !offsetInRange r.offset then .error .offsetOutOfRange
    else .ok (encodeFields m op (BitVec.ofInt 4 r.predicate) (BitVec.ofInt 4 r.regTarget)
      (BitVec.ofInt 4 r.regSrc1) (BitVec.ofInt 4 r.regSrc2) r.offset)

/-- `encode` of an unchecked record under the default opcode map. -/
def encodeRecord (r : InstrRecord) : Except EncodeError Word := encodeRecordWith opcodeMap r

/-- The Word that an opcode-table instruction of `nbits` bits with bits `w` stands in memory as: a row has one Word, and
the bits above `nbits` are 0. -/
def tableWord (nbits w : Nat) : Word := BitVec.ofNat 32 (w % 2 ^ nbits)

/-- The instruction the decoder reads from an opcode-table instruction; `none` where it refuses. -/
def decodeTableWord (nbits w : Nat) : Option Instr :=
  match decode (tableWord nbits w) with
  | .ok i => some i
  | .error _ => none

end Sys2Proof
end

