-- ==== Sys2Proof/Machine/Flags.lean ====
section
/-! DEFINITION. The condition flags and their derivation from an exact result (10_state.md R30, R31; 42_alu.md R128,
R133). UNVERIFIED: the spec takes the bit positions from general knowledge (its decision D7, log entry 7); unsafe only for a
claim that names the bits. -/

namespace Sys2Proof.Machine

/-- M, "minus": bit 0 (R30). -/
def flagM : Flags := 0b0001#4

/-- Z, "zero": bit 1 (R30). -/
def flagZ : Flags := 0b0010#4

/-- P, "plus": bit 2 (R30). -/
def flagP : Flags := 0b0100#4

/-- V, "overflow/invalid": bit 3 (R30). -/
def flagV : Flags := 0b1000#4

/-- The predicate ALWAYS, M|Z|P|V (R14, R30). -/
def flagsAlways : Flags := flagM ||| flagZ ||| flagP ||| flagV

/-- The sign class of an exact result: Z if it is 0, M if it is below 0, P if it is above 0 (R128). -/
def signFlag (r : Int) : Flags := if r = 0 then flagZ else if r < 0 then flagM else flagP

/-- An exact result is representable in 32 signed bits (R133). -/
def fits32 (r : Int) : Bool := decide (-2 ^ 31 ≤ r) && decide (r ≤ 2 ^ 31 - 1)

end Sys2Proof.Machine
end

