-- ==== Sys2Proof/Machine/Alu.lean ====
section
/-! DEFINITION. The arithmetic/logic unit as a block on its own (42_alu.md R125 to R139): a pure function of an opcode
number and two exact integers. -/

namespace Sys2Proof.Machine

/-- What the ALU returns: a 32-bit result and one flag (R125). -/
structure AluOut where
  result : Word
  flag   : Flags
deriving DecidableEq, Repr

/-- The failure outcome (0, V) (R131). -/
def aluFailure : AluOut := { result := 0#32, flag := flagV }

/-- The quotient rounded toward zero, for a divisor other than 0 (R136). UNVERIFIED: the spec's decision D4 (log entry
8). -/
def truncDiv (a b : Int) : Int := a.sign * b.sign * ((a.natAbs / b.natAbs : Nat) : Int)

/-- The exact integer of the operation table (R126, R127); `none` for a division by zero (R131). -/
def exactResult (op : Opcode) (in1 in2 : Int) : Option Int :=
  match op with
  | .add => some (in1 + in2)
  | .sub => some (in1 - in2)
  | .mul => some (in1 * in2)
  | .div => if in2 = 0 then none else some (truncDiv in1 in2)
  | .load => some (in1 + in2)
  | .store => some (in1 + in2)
  | .halt => some 0

/-- An exact result packed with its flag, or the failure when it does not fit 32 signed bits (R126, R128, R133).
UNVERIFIED: the spec's decision D2; unsafe for a sum that does not fit (log entry 8). -/
def packResult (r : Int) : AluOut :=
  if fits32 r then { result := bits32 r, flag := signFlag r } else aluFailure

/-- The ALU operation of one of the seven mnemonics. -/
def aluOp (op : Opcode) (in1 in2 : Int) : AluOut :=
  match exactResult op in1 in2 with
  | none => aluFailure
  | some r => packResult r

/-- `alu_exec` under an opcode map, on a raw 6-bit opcode number: a number of no mnemonic is a table miss, (0, V) (R125,
R126, R132). -/
def aluExecWith (m : OpcodeMap) (n : BitVec 6) (in1 in2 : Int) : AluOut :=
  match opcodeOf m n with
  | none => aluFailure
  | some op => aluOp op in1 in2

/-- `alu_exec` under the default opcode map. -/
def aluExec (n : BitVec 6) (in1 in2 : Int) : AluOut := aluExecWith opcodeMap n in1 in2

end Sys2Proof.Machine
end

