-- ==== Sys2Proof/Machine/State.lean ====
section
/-! DEFINITION. The architectural state as plain data, the reasons a step can stop, and the state after reset
(10_state.md). -/

namespace Sys2Proof.Machine

/-- The control state (R36). -/
inductive Control where
  | running
  | halted
  | faulted
deriving DecidableEq, Repr

/-- The causes of the fault record (60_exceptions.md R231); `FaultCause.code` in Ops.lean gives their 3-bit codes. -/
inductive FaultCause where
  | none
  | decodeError
  | fetchOutOfRange
  | loadOutOfRange
  | storeOutOfRange
deriving DecidableEq, Repr

/-- The fault record (R37). -/
structure FaultRecord where
  cause   : FaultCause
  address : Word
  word    : Word
deriving DecidableEq, Repr

/-- The record while the machine is not Faulted: cause 0, address 0, word 0 (R37). -/
def FaultRecord.empty : FaultRecord := { cause := .none, address := 0#32, word := 0#32 }

/-- One memory cell: a word address and the Word it holds. The smallest addressable unit is the Word (20_memory.md R51,
log entry 1). -/
abbrev Cell := Nat × Word

/-- The memory: its capacity `MEM_WORDS`, fixed at construction (R52), and the cells that the host loaded or a STORE
wrote, by strictly rising address. A cell not listed holds `Config.memInit` of its address (R62, log entry 2). -/
structure Memory where
  capacity : Nat
  cells    : List Cell
deriving DecidableEq, Repr

/-- The whole state of the machine (R20), and the parameters it is configured with, which no step and no transaction
changes (R38). -/
structure State where
  /-- Registers 1 to 15, register i at index i - 1; register 0 has no storage (48_interfaces.md R209) and register 15 is
  the program counter (R28). -/
  regs    : Vector Word 15
  /-- The condition register (R30). -/
  cond    : Flags
  /-- The control state, `state` in the spec (R36). -/
  control : Control
  /-- The fault record (R37). -/
  fault   : FaultRecord
  /-- The memory (20_memory.md). -/
  mem     : Memory
  /-- `START_ADDR` and `OPCODE_MAP` (00_scope.md R8). -/
  params  : Parameters
deriving DecidableEq, Repr

/-- Why `step` has no next state. Only `step` raises these, never the meaning of an instruction. The spec's own faults
(60_exceptions.md R231) are NEXT states with control Faulted (DESIGN CHOICE, safe, log entry 10). -/
inductive Fault where
  /-- Raised by `step` in Halted: no step exists there (43_control_fsm.md R151). Safe: the machine stops as the spec
  says. -/
  | noStepInHalted
  /-- Raised by `step` in Faulted, with the fault record the host reads (R151, R224). Safe, as above. -/
  | noStepInFaulted (record : FaultRecord)
deriving DecidableEq, Repr

/-- Why an instruction has no meaning in the model. -/
inductive Refusal where
  /-- Answered by an arm of `exec` whose instruction has no meaning yet; no arm is left so. Safe: nothing is claimed of
  it. -/
  | notModelled (mnemonic : String)
deriving DecidableEq, Repr

/-- The state after reset of a machine with given parameters and a memory that nobody loaded (R41, 70_reset_and_hazards.md R260):
Running, r15 = `START_ADDR`, r1 to r14 = 0, cond = 0b1111, no fault. UNVERIFIED: the spec takes the values of cond and r1
to r14 from general knowledge; unsafe for a claim about a run from reset (log entry 4). -/
def State.resetWith (p : Parameters) (memWords : Nat) : State where
  regs    := (Vector.replicate 15 0#32).set 14 p.startAddr
  cond    := 0b1111#4
  control := .running
  fault   := FaultRecord.empty
  mem     := { capacity := memWords, cells := [] }
  params  := p

/-- The machine right after reset, with the default parameters (R41, R76; log entries 3, 5, 6). -/
def State.reset : State := State.resetWith { startAddr := Config.startAddr, opcodes := opcodeMap } Config.memWords

end Sys2Proof.Machine
end

