-- ==== Sys2Proof/Machine/Ops.lean ====
section
/-! DEFINITION. The named operations over registers and memory, the raising of a fault, and the canonical form of
memory. -/

namespace Sys2Proof.Machine

/-! ## Registers (10_state.md R22 to R25, 48_interfaces.md R209) -/

/-- `x[i]`: 0 for register 0, else the value register i holds (R22, R23). -/
def State.getReg (s : State) (i : RegIdx) : Word :=
  if i = 0#4 then 0#32 else s.regs[i.toNat - 1]'(by have := i.isLt; omega)

/-- `x[i] <- v`: discarded for register 0 (R22, R24). -/
def State.setReg (s : State) (i : RegIdx) (v : Word) : State :=
  if i = 0#4 then s else { s with regs := s.regs.set (i.toNat - 1) v (by have := i.isLt; omega) }

/-- `increment(i)`: plus one, wrapping at 32 bits, no flag (R25). -/
def State.incReg (s : State) (i : RegIdx) : State := s.setReg i (s.getReg i + 1#32)

/-- The program counter: another name for register 15 (R28). -/
abbrev State.pc (s : State) : Word := s.getReg 15#4

/-- `cond <- f`: replaced, never merged (R32, R160). -/
def State.setCond (s : State) (f : Flags) : State := { s with cond := f }

/-- `state <- c` (R36). -/
def State.setControl (s : State) (c : Control) : State := { s with control := c }

/-- The memory of a state replaced. -/
def State.setMem (s : State) (m : Memory) : State := { s with mem := m }

/-! ## Memory (20_memory.md R50 to R55) -/

/-- An address is valid when its signed reading lies in 0 to `MEM_WORDS` - 1 (R53). -/
def Memory.validAddr (m : Memory) (a : Word) : Bool :=
  decide (0 ≤ sint32 a) && decide (sint32 a < (m.capacity : Int))

/-- The Word a list of cells holds at an address, if it lists one. -/
def lookupCell : List Cell → Nat → Option Word
  | [], _ => none
  | (b, w) :: rest, a => if a = b then some w else lookupCell rest a

/-- A list of cells with the Word at one address set, in rising order of address. -/
def insertCell : List Cell → Nat → Word → List Cell
  | [], a, v => [(a, v)]
  | (b, w) :: rest, a, v =>
    if a < b then (a, v) :: (b, w) :: rest
    else if a = b then (a, v) :: rest
    else (b, w) :: insertCell rest a v

/-- The Word at a word address: what was loaded or stored last, else the free value of a cell nobody loaded (R54,
R62). -/
def Memory.peek (m : Memory) (a : Nat) : Word := (lookupCell m.cells a).getD (Config.memInit a)

/-- The memory with the Word at one word address set. -/
def Memory.poke (m : Memory) (a : Nat) (v : Word) : Memory := { m with cells := insertCell m.cells a v }

/-- `MemRead(addr, 1)`: the Word at a valid address; no value at any other, for which the caller raises the fault of its
access kind (R54). -/
def Memory.read (m : Memory) (a : Word) : Option Word :=
  if m.validAddr a then some (m.peek a.toNat) else none

/-- `MemWrite(addr, 1, v)`: the cell at a valid address set; no memory at any other address (R55). -/
def Memory.write (m : Memory) (a : Word) (v : Word) : Option Memory :=
  if m.validAddr a then some (m.poke a.toNat v) else none

/-- The canonical form of memory: a capacity the spec allows (R52) and cells listed by strictly rising address, each
within the capacity. A cell that is not listed is one that nobody loaded and no STORE wrote. -/
abbrev Memory.wf (m : Memory) : Prop :=
  1 ≤ m.capacity ∧ m.capacity ≤ 2 ^ 31 ∧ m.cells.Pairwise (fun x y => x.1 < y.1) ∧ ∀ c ∈ m.cells, c.1 < m.capacity

/-! ## Faults (60_exceptions.md) -/

/-- The 3-bit cause codes (R231). -/
def FaultCause.code : FaultCause → BitVec 3
  | .none => 0
  | .decodeError => 1
  | .fetchOutOfRange => 2
  | .loadOutOfRange => 3
  | .storeOutOfRange => 4

/-- `raise F(address, word)`: the record written and the control state Faulted, nothing else (R233). There is no trap
entry and no return: only reset leaves Faulted (R242, R243). -/
def State.raise (s : State) (cause : FaultCause) (address word : Word) : State :=
  { s with fault := { cause := cause, address := address, word := word }, control := .faulted }

end Sys2Proof.Machine
end

