-- ==== Sys2Proof/Machine/Operands.lean ====
section
/-! DEFINITION. The operand forms: the two ALU operands every opcode reads (30_encoding.md R74, 43_control_fsm.md R157)
and the predicate test (R155). -/

namespace Sys2Proof.Machine

/-- op1: the signed reading of `x[reg_src1]` (R157). -/
def operand1 (rs1 : RegIdx) (s : State) : Int := sint32 (s.getReg rs1)

/-- op2: the exact sum of the signed reading of `x[reg_src2]` and the offset, not wrapped (R157). -/
def operand2 (rs2 : RegIdx) (off : Int) (s : State) : Int := sint32 (s.getReg rs2) + off

/-- The predicate test is passed when `cond` and the predicate share a set bit (R155). -/
def predicatePasses (pred : Flags) (s : State) : Bool := (s.cond &&& pred) != 0#4

end Sys2Proof.Machine
end

