-- ==== Sys2Proof/Machine/Execute.lean ====
section
/-! DEFINITION. Phases 4 to 6 of the step, shared by all seven instructions (43_control_fsm.md R155 to R162). -/

namespace Sys2Proof.Machine

/-- The skip path: the program counter advanced, nothing else (R156). -/
def skip (s : State) : State := s.incReg 15#4

/-- Phase 4: the executed state when the predicate test passes, else the skipped one (R155, R156). -/
def gated (pred : Flags) (s executed : State) : State :=
  if predicatePasses pred s then executed else skip s

/-- The ALU call of phase 5, with the number of the mnemonic under the machine's `OPCODE_MAP`, on the operands read from
the state before any write (R157, R158). -/
def aluCall (op : Opcode) (rs1 rs2 : RegIdx) (off : Int) (s : State) : AluOut :=
  aluExecWith s.params.opcodes (s.params.opcodes.number op) (operand1 rs1 s) (operand2 rs2 off s)

/-- The writes of phase 5 in the spec's order: target register, condition, program counter (R159, R160, R161). -/
def genericWrite (rt : RegIdx) (out : AluOut) (s : State) : State :=
  ((s.setReg rt out.result).setCond out.flag).incReg 15#4

/-- Phase 6 of LOAD: the target overwritten with the Word at the address, or the range fault (R162, R190). -/
def loadEffect (rt : RegIdx) (addr : Word) (s : State) : State :=
  match s.mem.read addr with
  | none => s.raise .loadOutOfRange addr 0#32
  | some w => s.setReg rt w

/-- Phase 6 of STORE: the target as it is now stored at the address, or the range fault (R162, R191). -/
def storeEffect (rt : RegIdx) (addr : Word) (s : State) : State :=
  match s.mem.write addr (s.getReg rt) with
  | none => s.raise .storeOutOfRange addr 0#32
  | some m => s.setMem m

/-- Phase 6 of HALT (R162, R200). -/
def haltEffect (s : State) : State := s.setControl .halted

end Sys2Proof.Machine
end

