-- ==== Sys2Proof/Machine/Arithmetic.lean ====
section
/-! DEFINITION. The meanings of ADD, SUB, MUL and DIV (44_arithmetic.md): phase 5 with their row of the ALU table, no
phase-6 effect (R184). -/

namespace Sys2Proof.Machine

/-- ADD (R180). -/
def execAdd (pred : Flags) (rt rs1 rs2 : RegIdx) (off : Int) (s : State) : Host.Outcome State Fault Refusal :=
  .next (gated pred s (genericWrite rt (aluCall .add rs1 rs2 off s) s))

/-- SUB (R181). -/
def execSub (pred : Flags) (rt rs1 rs2 : RegIdx) (off : Int) (s : State) : Host.Outcome State Fault Refusal :=
  .next (gated pred s (genericWrite rt (aluCall .sub rs1 rs2 off s) s))

/-- MUL (R182). -/
def execMul (pred : Flags) (rt rs1 rs2 : RegIdx) (off : Int) (s : State) : Host.Outcome State Fault Refusal :=
  .next (gated pred s (genericWrite rt (aluCall .mul rs1 rs2 off s) s))

/-- DIV (R183). -/
def execDiv (pred : Flags) (rt rs1 rs2 : RegIdx) (off : Int) (s : State) : Host.Outcome State Fault Refusal :=
  .next (gated pred s (genericWrite rt (aluCall .div rs1 rs2 off s) s))

end Sys2Proof.Machine
end

