-- ==== Sys2Proof/Machine/Halt.lean ====
section
/-! DEFINITION. The meaning of HALT (46_halt.md). -/

namespace Sys2Proof.Machine

/-- HALT (R200): the target written with 0, cond = Z, the program counter advanced, then the control state Halted. -/
def execHalt (pred : Flags) (rt rs1 rs2 : RegIdx) (off : Int) (s : State) : Host.Outcome State Fault Refusal :=
  .next (gated pred s (haltEffect (genericWrite rt (aluCall .halt rs1 rs2 off s) s)))

end Sys2Proof.Machine
end

