-- ==== Sys2Proof/Machine/LoadStore.lean ====
section
/-! DEFINITION. The meanings of LOAD and STORE (45_load_store.md): phase 5 writes the effective address to the target,
then phase 6 makes the memory access, after the program-counter advance (R189 to R192). -/

namespace Sys2Proof.Machine

/-- LOAD (R190): the target is written twice, first with the address, then with the Word read. -/
def execLoad (pred : Flags) (rt rs1 rs2 : RegIdx) (off : Int) (s : State) : Host.Outcome State Fault Refusal :=
  .next (gated pred s
    (loadEffect rt (aluCall .load rs1 rs2 off s).result (genericWrite rt (aluCall .load rs1 rs2 off s) s)))

/-- STORE (R191): the Word stored is the target register after the address was written to it. -/
def execStore (pred : Flags) (rt rs1 rs2 : RegIdx) (off : Int) (s : State) : Host.Outcome State Fault Refusal :=
  .next (gated pred s
    (storeEffect rt (aluCall .store rs1 rs2 off s).result (genericWrite rt (aluCall .store rs1 rs2 off s) s)))

end Sys2Proof.Machine
end

