-- ==== Sys2Proof/Machine/Dispatch.lean ====
section
/-! DEFINITION. The dispatch of a decoded instruction to its meaning. -/

namespace Sys2Proof.Machine

-- One arm per row of spec/opcode_table.json, in the table's order.
def exec (i : Instr) (s : State) : Host.Outcome State Fault Refusal :=
  match i with
  | .halt p t a b o => Sys2Proof.Machine.execHalt p t a b o s
  | .load p t a b o => Sys2Proof.Machine.execLoad p t a b o s
  | .store p t a b o => Sys2Proof.Machine.execStore p t a b o s
  | .add p t a b o => Sys2Proof.Machine.execAdd p t a b o s
  | .sub p t a b o => Sys2Proof.Machine.execSub p t a b o s
  | .mul p t a b o => Sys2Proof.Machine.execMul p t a b o s
  | .div p t a b o => Sys2Proof.Machine.execDiv p t a b o s

end Sys2Proof.Machine
end

