-- ==== Sys2Proof/Machine/Fetch.lean ====
section
/-! DEFINITION. Phases 1 and 2 of the step: fetch at register 15 and decode (43_control_fsm.md R152, R153). -/

namespace Sys2Proof.Machine

/-- What phases 1 and 2 give: one of the two step faults, or the instruction with its address and Word. -/
inductive FrontEnd where
  | fetchOutOfRange (address : Word)
  | decodeError (address word : Word)
  | decoded (address word : Word) (i : Instr)
deriving DecidableEq, Repr

/-- Fetch at the full 32-bit value of register 15, then decode under the machine's `OPCODE_MAP`, whatever the predicate bits are (R152, R153). -/
def frontEnd (s : State) : FrontEnd :=
  match s.mem.read s.pc with
  | none => .fetchOutOfRange s.pc
  | some w =>
    match decodeWith s.params.opcodes w with
    | .error _ => .decodeError s.pc w
    | .ok i => .decoded s.pc w i

end Sys2Proof.Machine
end

