-- ==== Sys2Proof/Machine/Step.lean ====
section
/-! DEFINITION. One step of the control loop (43_control_fsm.md R150), and the placing of an instruction where the next
step fetches it. -/

namespace Sys2Proof.Machine

/-- One step, enabled only in Running (R151): the step faults of phases 1 and 2 leave everything else as before (R152,
R153, 60_exceptions.md R234), else the decoded instruction is executed or skipped by its meaning. -/
def step (s : State) : Host.Outcome State Fault Refusal :=
  match s.control with
  | .halted => .fault .noStepInHalted
  | .faulted => .fault (.noStepInFaulted s.fault)
  | .running =>
    match frontEnd s with
    | .fetchOutOfRange a => .next (s.raise .fetchOutOfRange a 0#32)
    | .decodeError a w => .next (s.raise .decodeError a w)
    | .decoded _ _ i => exec i s

/-- `s` with an opcode-table instruction stored at the program counter and the machine Running, as a fetch needs. Where
register 15 of `s` is no valid address no store can change what is fetched. DESIGN CHOICE, safe: it stands for the load of
a program from outside the machine (log entry 13). -/
def State.withFetchWord (s : State) (nbits w : Nat) : State :=
  { s with
    mem := s.mem.poke s.pc.toNat (Sys2Proof.tableWord nbits w)
    control := .running
    fault := FaultRecord.empty }

end Sys2Proof.Machine
end

