-- ==== Sys2Proof/Machine/Ports.lean ====
section
/-! DEFINITION. The decoder and the ALU at their ports (48_interfaces.md R207, R211): the same functions as decode and
`alu_exec`, with the widths of the wires. The other ports of that file are the functions themselves: BitField (R206),
`encode` with its error (R208), `getReg`, `setReg` and `incReg` (R209), `Memory.read` and `Memory.write` with `none` for
`range_error` (R212). -/

namespace Sys2Proof.Machine

/-- The decoder's outputs (R207); `valid` is 0 exactly on a decode failure, and the others are then not to be used. -/
structure DecoderPort where
  valid     : Bool
  opcode    : BitVec 6
  predicate : BitVec 4
  regTarget : BitVec 4
  regSrc1   : BitVec 4
  regSrc2   : BitVec 4
  offset    : BitVec 10
deriving DecidableEq, Repr

/-- The decoder, wired for an opcode map (R207). -/
def decoderPort (m : OpcodeMap) (w : Word) : DecoderPort where
  valid     := (opcodeOf m (BitVec.ofNat 6 (opcodeField.extract w))).isSome
  opcode    := BitVec.ofNat 6 (opcodeField.extract w)
  predicate := BitVec.ofNat 4 (predicateField.extract w)
  regTarget := BitVec.ofNat 4 (regTargetField.extract w)
  regSrc1   := BitVec.ofNat 4 (regSrc1Field.extract w)
  regSrc2   := BitVec.ofNat 4 (regSrc2Field.extract w)
  offset    := BitVec.ofInt 10 (offsetField.extractSigned w)

/-- The ALU at its ports, wired for an opcode map: a 6-bit opcode number and two signed 33-bit inputs (R211). -/
def aluPort (m : OpcodeMap) (opcode : BitVec 6) (in1 in2 : BitVec 33) : AluOut :=
  aluExecWith m opcode in1.toInt in2.toInt

/-- `in1` as the control loop drives it: the source register sign-extended from 32 to 33 bits (R211). -/
def aluIn1 (rs1 : RegIdx) (s : State) : BitVec 33 := (s.getReg rs1).signExtend 33

/-- `in2` as the control loop drives it: the 33-bit sum of the source register and the 10-bit offset, both sign-extended
(R211). -/
def aluIn2 (rs2 : RegIdx) (off : BitVec 10) (s : State) : BitVec 33 :=
  (s.getReg rs2).signExtend 33 + off.signExtend 33

end Sys2Proof.Machine
end

