-- ==== Sys2Proof/Machine/Observer.lean ====
section
/-! DEFINITION. The observer interface: the record that phase 3 presents (43_control_fsm.md R154, 48_interfaces.md R219,
R220). An output computed from the state before the step, with no way back into the state. -/

namespace Sys2Proof.Machine

/-- One record of the trace port (R219). -/
structure TraceRecord where
  pcAddress : Word
  rawWord   : Word
  decoded   : Instr
deriving DecidableEq, Repr

/-- The record that the step from `s` presents: one after a successful decode, executed or skipped alike; none when the
step faults in phase 1 or 2, and none where there is no step (R154). -/
def observed (s : State) : Option TraceRecord :=
  match s.control with
  | .halted => none
  | .faulted => none
  | .running =>
    match frontEnd s with
    | .fetchOutOfRange _ => none
    | .decodeError _ _ => none
    | .decoded a w i => some { pcAddress := a, rawWord := w, decoded := i }

end Sys2Proof.Machine
end

