-- ==== Sys2Proof/Machine/HostPort.lean ====
section
/-! DEFINITION. The host interface: the transactions of 48_interfaces.md R221 to R226, which land between steps only, and
the runs they make. -/

namespace Sys2Proof.Machine

/-- A request for one step: the step when there is one, else nothing changes (43_control_fsm.md R151). -/
def stepRequest (s : State) : State :=
  match step s with
  | .next t => t
  | .fault _ => s
  | .refused _ => s

/-- The step permit: in single-step mode the machine waits, with all state stable, until the host acknowledges (R172,
R223). -/
def hostStep (singleStep stepAck : Bool) (s : State) : State :=
  if singleStep && !stepAck then s else stepRequest s

/-- Reset: every piece of state at its reset value, register 15 at the machine's `START_ADDR`, memory not written (R221,
70_reset_and_hazards.md R260 to R262). -/
def hostReset (s : State) : State :=
  { State.resetWith s.params s.mem.capacity with mem := s.mem }

/-- `start(from_address)`: control Running and register 15, nothing else; refused in Faulted (R169, R170, R222). -/
def hostStart (fromAddress : Word) (s : State) : State :=
  match s.control with
  | .faulted => s
  | .running => (s.setReg 15#4 fromAddress).setControl .running
  | .halted => (s.setReg 15#4 fromAddress).setControl .running

/-- The host's write of one Word of the memory image: refused during a run (R226, 93_implementation_defined.md U14) and
at an address that is not valid (R212). DEDUCED: Running right after reset counts as a run (log entry 12). -/
def hostLoad (addr w : Word) (s : State) : State :=
  match s.control with
  | .running => s
  | .halted => (s.mem.write addr w).elim s s.setMem
  | .faulted => (s.mem.write addr w).elim s s.setMem

/-- The host's read of a register, between steps (R224). -/
def hostReadReg (index : RegIdx) (s : State) : Word := s.getReg index

/-- The host's read of `cond`, between steps (R224). -/
def hostReadCond (s : State) : Flags := s.cond

/-- The host's read of a memory cell, between steps: no Word at an address that is not valid (R224, R212). -/
def hostReadMem (addr : Word) (s : State) : Option Word := s.mem.read addr

/-- The status outputs: the control state, the 3-bit fault code, and the fault record's address and word (R224). -/
def hostStatus (s : State) : Control × BitVec 3 × Word × Word :=
  (s.control, s.fault.cause.code, s.fault.address, s.fault.word)

/-- The transactions by which the host changes the state; there are no others (R225). -/
inductive HostCommand where
  | reset
  | start (fromAddress : Word)
  | load (addr w : Word)
  | step (singleStep stepAck : Bool)
deriving DecidableEq, Repr

/-- The effect of one host transaction. -/
def hostApply (c : HostCommand) (s : State) : State :=
  match c with
  | .reset => hostReset s
  | .start a => hostStart a s
  | .load a w => hostLoad a w s
  | .step m k => hostStep m k s

/-- A memory image written cell by cell, in order; an entry at an address that is not valid changes nothing (R226). -/
def Memory.loadImage (m : Memory) : List (Word × Word) → Memory
  | [] => m
  | (a, w) :: rest => ((m.write a w).getD m).loadImage rest

/-- A machine with given parameters at the start of its first run: an image loaded from outside, then reset (70_reset_and_hazards.md R265). -/
def bootWith (p : Parameters) (memWords : Nat) (image : List (Word × Word)) : State :=
  { State.resetWith p memWords with
    mem := (State.resetWith p memWords).mem.loadImage image }

/-- The state after `n` step requests. -/
def runSteps : Nat → State → State
  | 0, s => s
  | n + 1, s => runSteps n (stepRequest s)

/-- The records presented by `n` step requests, in step order (R220). -/
def traceOf : Nat → State → List TraceRecord
  | 0, _ => []
  | n + 1, s => (observed s).toList ++ traceOf n (stepRequest s)

end Sys2Proof.Machine
end

