-- ==== Sys2Proof/Safety.lean ====
section
/-! DEFINITION. What claims mean by a good state and by a run that ends well. -/

namespace Sys2Proof.Machine

/-- The values `cond` can hold: all four flags between reset and the first executed instruction, else exactly one
(10_state.md R33). -/
def condLegal (c : Flags) : Prop :=
  c = flagsAlways ∨ c = flagM ∨ c = flagZ ∨ c = flagP ∨ c = flagV

/-- A fault record that tells why the run ended (60_exceptions.md R231): a Word that does not decode at a valid address,
or an address that is not valid, with the word 0. -/
def FaultRecord.explains (f : FaultRecord) (m : Memory) (opcodes : OpcodeMap) : Prop :=
  match f.cause with
  | .none => False
  | .decodeError => m.validAddr f.address = true ∧ ∀ i, decodeWith opcodes f.word ≠ .ok i
  | .fetchOutOfRange => m.validAddr f.address = false ∧ f.word = 0#32
  | .loadOutOfRange => m.validAddr f.address = false ∧ f.word = 0#32
  | .storeOutOfRange => m.validAddr f.address = false ∧ f.word = 0#32

/-- The invariant of the machine: memory in canonical form, `cond` one of its legal values, and a fault record that is
empty unless the machine is Faulted and then explains the fault (R33, R37, R52, R231). -/
structure State.Good (s : State) : Prop where
  mem_wf      : s.mem.wf
  cond_legal  : condLegal s.cond
  fault_empty : s.control ≠ .faulted → s.fault = FaultRecord.empty
  fault_why   : s.control = .faulted → s.fault.explains s.mem s.params.opcodes

/-- The successful end of a run (60_exceptions.md R252): Halted after at most `n` steps. -/
def EndsHalted (n : Nat) (s : State) : Prop := (runSteps n s).control = .halted

/-- The failed end of a run (R252): Faulted after at most `n` steps. -/
def EndsFaulted (n : Nat) (s : State) : Prop := (runSteps n s).control = .faulted

end Sys2Proof.Machine
end

