-- ==== Sys2Proof/Certificates/Slice0/Obligations.lean ====
section
/-! DEFINITION. The statements for the provers, each citing the rule of spec/ it formalises. The terms they share come
first, written out from the spec and not from the definitions of the model. -/

namespace Sys2Proof.Claims

open Sys2Proof Sys2Proof.Machine

/-- Every cell of memory reads as before, and the capacity and the parameters are the same. -/
def SameMemory (s u : State) : Prop :=
  u.mem.capacity = s.mem.capacity ∧ u.params = s.params ∧ ∀ x : Nat, u.mem.peek x = s.mem.peek x

/-- The exact integer of the operation table (42_alu.md R127), `none` for a division by zero (R131). -/
def exactOf (op : Opcode) (x y : Int) : Option Int :=
  match op with
  | .add => some (x + y)
  | .sub => some (x - y)
  | .mul => some (x * y)
  | .div => if y = 0 then none else some (x.tdiv y)
  | .load => some (x + y)
  | .store => some (x + y)
  | .halt => some 0

/-- The 32-bit result: the exact integer when it lies in -2^31 to 2^31 - 1, else 0 (R131, R133). -/
def resultWord : Option Int → Word
  | some r => if -2 ^ 31 ≤ r ∧ r ≤ 2 ^ 31 - 1 then BitVec.ofInt 32 r else 0#32
  | none => 0#32

/-- The flag: Z, M or P by the sign of an exact integer that fits, else V (R128, R131, R133; bits by 10_state.md R30). -/
def resultFlag : Option Int → Flags
  | some r => if -2 ^ 31 ≤ r ∧ r ≤ 2 ^ 31 - 1 then (if r = 0 then 2#4 else if r < 0 then 1#4 else 4#4) else 8#4
  | none => 8#4

/-- Every register after phase 5 with target `t` and result `res`: register 0 reads 0, register 15 is one past what the
generic write left in it, the target holds the result, every other register is as before (43_control_fsm.md R159,
R161). -/
def regAfterWrite (t : RegIdx) (res : Word) (s : State) (r : RegIdx) : Word :=
  if r = 0#4 then 0#32
  else if r = 15#4 then (if t = 15#4 then res else s.getReg 15#4) + 1#32
  else if r = t then res
  else s.getReg r

/-- The effect of an executed arithmetic instruction with the exact result `e`: the target, cond and the program counter
by phase 5, and nothing else (44_arithmetic.md R184). -/
def ArithmeticEffect (t : RegIdx) (e : Option Int) (s u : State) : Prop :=
  (∀ r, u.getReg r = regAfterWrite t (resultWord e) s r) ∧ u.cond = resultFlag e ∧
    u.control = s.control ∧ u.fault = s.fault ∧ SameMemory s u

/-- The first operand (R157). -/
def opOne (a : RegIdx) (s : State) : Int := (s.getReg a).toInt

/-- The second operand (R157). -/
def opTwo (b : RegIdx) (off : Int) (s : State) : Int := (s.getReg b).toInt + off

/-- The exact effective address (45_load_store.md R189). -/
def addressSum (a b : RegIdx) (off : Int) (s : State) : Option Int := some (opOne a s + opTwo b off s)

/-- Under the default opcode map, the Words `w` with `w & 0xFC000000` equal to the match value are exactly those that
decode to the instruction, with its fields from bits 25:22, 21:18, 17:14, 13:10 and the signed bits 9:0 (30_encoding.md R71, R73, R77). -/
def SelectedBy (matchValue : Word) (mk : Flags → RegIdx → RegIdx → RegIdx → Int → Instr) : Prop :=
  (∀ w : Word, w &&& 0xFC000000#32 = matchValue →
    decode w = .ok (mk (w.extractLsb' 22 4) (w.extractLsb' 18 4) (w.extractLsb' 14 4) (w.extractLsb' 10 4)
      (w.extractLsb' 0 10).toInt)) ∧
  (∀ (w : Word) p t a b off, decode w = .ok (mk p t a b off) → w &&& 0xFC000000#32 = matchValue)

/-- The step from `s` executes `i`: Running, `i` is what the Word at the program counter decodes to under the machine's
`OPCODE_MAP`, and its predicate test passes. -/
def Executes (s : State) (i : Instr) : Prop :=
  s.control = .running ∧
    ∃ w, s.mem.read (s.getReg 15#4) = some w ∧ decodeWith s.params.opcodes w = .ok i ∧ s.cond &&& i.pred ≠ 0#4

/-- The six fields of an instruction with their BitFields and the integers inserted (41_codec.md R114). -/
def fieldValues (m : OpcodeMap) (i : Instr) : List (BitField × Int) :=
  [(opcodeField, ((m.number i.opcode).toNat : Int)), (predicateField, (i.pred.toNat : Int)),
   (regTargetField, (i.rt.toNat : Int)), (regSrc1Field, (i.rs1.toNat : Int)), (regSrc2Field, (i.rs2.toNat : Int)),
   (offsetField, i.off)]

end Sys2Proof.Claims

open Sys2Proof Sys2Proof.Machine Sys2Proof.Claims

/-! ## The step, reset and the host -/

/-- A step in Running at a fetchable Word that decodes, under the machine's own `OPCODE_MAP`, is the meaning of the decoded instruction, with nothing added
around it (43_control_fsm.md R150). -/
def Obligations.StepRunsDecodedInstruction : Prop :=
  ∀ (s : State) (w : Word) (i : Instr), s.control = .running → s.mem.read (s.getReg 15#4) = some w →
    decodeWith s.params.opcodes w = .ok i → i.wellFormed = true ∧ step s = exec i s

/-- What reset leaves, from any state, in a machine booted with any parameters and image, and in `State.reset`
(70_reset_and_hazards.md R260, with R262 for memory; the values of cond and registers 1 to 14 are the spec's decisions D8
and D9, log entry 4, and `START_ADDR` is a parameter, log entry 5). -/
def Obligations.ResetGivesReadyState : Prop :=
  (∀ s : State, (hostReset s).control = .running ∧ (hostReset s).getReg 15#4 = s.params.startAddr ∧
    (∀ r, r ≠ 15#4 → (hostReset s).getReg r = 0#32) ∧ (hostReset s).cond = 0b1111#4 ∧
    (hostReset s).fault = { cause := .none, address := 0#32, word := 0#32 } ∧ (hostReset s).mem = s.mem ∧
    (hostReset s).params = s.params) ∧
  (∀ (p : Parameters) (n : Nat) (image : List (Word × Word)), (bootWith p n image).control = .running ∧
    (bootWith p n image).getReg 15#4 = p.startAddr ∧ (∀ r, r ≠ 15#4 → (bootWith p n image).getReg r = 0#32) ∧
    (bootWith p n image).cond = 0b1111#4 ∧
    (bootWith p n image).fault = { cause := .none, address := 0#32, word := 0#32 } ∧
    (bootWith p n image).params = p) ∧
  State.reset.control = .running ∧ State.reset.getReg 15#4 = Config.startAddr ∧
    (∀ r, r ≠ 15#4 → State.reset.getReg r = 0#32) ∧ State.reset.cond = 0b1111#4 ∧
    State.reset.fault = { cause := .none, address := 0#32, word := 0#32 }

/-- The invariant holds after reset. -/
def Obligations.ResetStateIsGood : Prop := State.reset.Good

/-- Words written out from the fields of 30_encoding.md R71 decode to their instructions, one of every opcode, and the
unassigned opcode 4 to none (opcode numbers: log entry 6). -/
def Obligations.KnownWordsDecode : Prop :=
  decode 0x0FC40005#32 = .ok (.add 15#4 1#4 0#4 0#4 5) ∧
  decode 0x14BFC3FD#32 = .ok (.sub 2#4 15#4 15#4 0#4 (-3)) ∧
  decode 0x1BD04800#32 = .ok (.mul 15#4 4#4 1#4 2#4 0) ∧
  decode 0x1E3B7200#32 = .ok (.div 8#4 14#4 13#4 12#4 (-512)) ∧
  decode 0x07C803FF#32 = .ok (.load 15#4 2#4 0#4 0#4 (-1)) ∧
  decode 0x0BC7C001#32 = .ok (.store 15#4 1#4 15#4 0#4 1) ∧
  decode 0x00800000#32 = .ok (.halt 2#4 0#4 0#4 0#4 0) ∧
  decode 0x10000000#32 = .error (.unrecognisedOpcode 4#6)

/-- No step is taken outside Running, nor in single-step mode without the host's acknowledgment: no state changes
(R151, with R172 and R223 for the permit). -/
def Obligations.NoStepOutsideRunning : Prop :=
  ∀ s : State,
    (s.control ≠ .running → (∀ u, step s ≠ .next u) ∧ ∀ m k, hostStep m k s = s) ∧
    hostStep true false s = s ∧
    (∀ u, step s = .next u → hostStep false false s = u ∧ hostStep false true s = u ∧ hostStep true true s = u)

/-- Start: accepted in Running and Halted, it sets control and register 15 and nothing else, whatever the address; an
address that is not valid faults at the first fetch; after reset a start at `START_ADDR` changes nothing (R170). -/
def Obligations.StartSetsControlAndPcOnly : Prop :=
  (∀ (a : Word) (s : State), s.control ≠ .faulted →
    (hostStart a s).control = .running ∧ (hostStart a s).getReg 15#4 = a ∧
    (∀ r, r ≠ 15#4 → (hostStart a s).getReg r = s.getReg r) ∧ (hostStart a s).cond = s.cond ∧
    (hostStart a s).fault = s.fault ∧ (hostStart a s).mem = s.mem ∧ (hostStart a s).params = s.params ∧
    (s.mem.validAddr a = false →
      step (hostStart a s) = .next ((hostStart a s).raise .fetchOutOfRange a 0#32))) ∧
  (∀ s : State, hostStart s.params.startAddr (hostReset s) = hostReset s)

/-- Faulted is left only by reset: a start there changes nothing, and no other transaction of the host leaves it
(R169). -/
def Obligations.FaultedLeftOnlyByReset : Prop :=
  ∀ (s : State), s.control = .faulted → (∀ a, hostStart a s = s) ∧
    ∀ c : HostCommand, c ≠ .reset → (hostApply c s).control = .faulted ∧ (hostApply c s).fault = s.fault

/-- The host writes memory only outside a run, one cell at a valid address, and never a register, cond, the control
state or the fault record by it (48_interfaces.md R226). -/
def Obligations.HostLoadsOnlyOutsideRuns : Prop :=
  ∀ (s : State) (a w : Word),
    (s.control = .running → hostLoad a w s = s) ∧
    (s.mem.validAddr a = false → hostLoad a w s = s) ∧
    (s.control ≠ .running → s.mem.validAddr a = true →
      (hostLoad a w s).mem.peek a.toNat = w ∧
      (∀ x, x ≠ a.toNat → (hostLoad a w s).mem.peek x = s.mem.peek x) ∧
      (hostLoad a w s).mem.capacity = s.mem.capacity ∧ (hostLoad a w s).regs = s.regs ∧
      (hostLoad a w s).cond = s.cond ∧ (hostLoad a w s).control = s.control ∧ (hostLoad a w s).fault = s.fault ∧
      (hostLoad a w s).params = s.params)

/-- Once Halted or Faulted, any number of step requests changes nothing and presents no record (R151, R201). -/
def Obligations.StoppedMachineStaysPut : Prop :=
  ∀ (n : Nat) (s : State), s.control ≠ .running → runSteps n s = s ∧ traceOf n s = []

/-! ## Registers and memory -/

/-- Register 0 reads 0 and a write to it has no effect; any other register holds what was written and no other register
or field changes; an increment adds 1 modulo 2^32 (10_state.md R22, R24, R25). -/
def Obligations.RegisterFileReadsBack : Prop :=
  ∀ (s : State) (i : RegIdx) (v : Word),
    s.getReg 0#4 = 0#32 ∧ s.setReg 0#4 v = s ∧ s.incReg 0#4 = s ∧
    (i ≠ 0#4 → (s.setReg i v).getReg i = v ∧ ((s.incReg i).getReg i).toNat = ((s.getReg i).toNat + 1) % 2 ^ 32) ∧
    (∀ j, j ≠ i → (s.setReg i v).getReg j = s.getReg j ∧ (s.incReg i).getReg j = s.getReg j) ∧
    (s.setReg i v).cond = s.cond ∧ (s.setReg i v).control = s.control ∧ (s.setReg i v).fault = s.fault ∧
    (s.setReg i v).mem = s.mem ∧ (s.incReg i).cond = s.cond ∧ (s.incReg i).control = s.control ∧
    (s.incReg i).fault = s.fault ∧ (s.incReg i).mem = s.mem ∧ (s.setReg i v).params = s.params ∧
    (s.incReg i).params = s.params

/-- An address is valid when its signed reading lies below the capacity and not below 0, and under the bound 2^31 on the
capacity this is the unsigned comparison (20_memory.md R53). -/
def Obligations.AddressValidityIsUnsigned : Prop :=
  ∀ (m : Memory) (a : Word), (m.validAddr a = true ↔ 0 ≤ a.toInt ∧ a.toInt < (m.capacity : Int)) ∧
    (m.capacity ≤ 2 ^ 31 → (m.validAddr a = true ↔ a.toNat < m.capacity))

/-- A read at a valid address gives the Word last written there, a write changes no other cell, and at an address that
is not valid there is no Word and no memory; a write keeps the canonical form (20_memory.md R54, R55). -/
def Obligations.MemoryReadsBack : Prop :=
  ∀ (m : Memory) (a v : Word),
    (m.validAddr a = true → ∃ m', m.write a v = some m' ∧ m'.read a = some v ∧ m'.capacity = m.capacity ∧
      (∀ b, b ≠ a → m'.read b = m.read b) ∧ (m.wf → m'.wf)) ∧
    (m.validAddr a = false → m.write a v = none ∧ m.read a = none)

/-! ## BitField and codec -/

/-- A BitField is built from a valid pair and from no other (40_bitfield.md R92). -/
def Obligations.BitFieldConstructionIsChecked : Prop :=
  ∀ lo hi : Int, (BitField.make? lo hi = none ↔ ¬ (0 ≤ lo ∧ lo ≤ hi ∧ hi ≤ 31)) ∧
    ∀ f, BitField.make? lo hi = some f → (f.fromBit : Int) = lo ∧ (f.toBit : Int) = hi

/-- The bound law of `extract` (R94). -/
def Obligations.ExtractIsBounded : Prop :=
  ∀ (f : BitField) (w : Word), f.extract w < 2 ^ (f.toBit - f.fromBit + 1)

/-- `extract_signed` agrees with `extract` when the top bit of the field is 0, and in every case modulo 2^width (R96). -/
def Obligations.ExtractSignedAgrees : Prop :=
  ∀ (f : BitField) (w : Word),
    (w.getLsbD f.toBit = false → f.extractSigned w = (f.extract w : Int)) ∧
    f.extractSigned w % 2 ^ f.width = (f.extract w : Int) % 2 ^ f.width ∧
    -2 ^ (f.width - 1) ≤ f.extractSigned w ∧ f.extractSigned w < 2 ^ (f.width - 1)

/-- The laws of `insert`: the field then reads as the value modulo 2^width, unsigned and signed; every bit outside the
field is as before; inserting what was extracted changes nothing (R98, R99). -/
def Obligations.InsertSetsFieldOnly : Prop :=
  ∀ (f : BitField) (v : Int) (w : Word),
    ((f.extract (f.insert v w) : Nat) : Int) = v % 2 ^ f.width ∧
    (-2 ^ (f.width - 1) ≤ v → v < 2 ^ (f.width - 1) → f.extractSigned (f.insert v w) = v) ∧
    (∀ j, j < 32 → j < f.fromBit ∨ f.toBit < j → (f.insert v w).getLsbD j = w.getLsbD j) ∧
    f.insert (f.extract w : Int) w = w

/-- `sign_extend` agrees with `extract_signed` where both are defined, and gives no value outside its preconditions
(R101, R100). -/
def Obligations.SignExtendAgrees : Prop :=
  ∀ field width : Nat,
    (2 ≤ width → width ≤ 32 → field < 2 ^ width → ∀ f : BitField, f.fromBit = 0 → f.toBit = width - 1 →
      signExtend? field width = some (f.extractSigned (BitVec.ofNat 32 field))) ∧
    (¬ (2 ≤ width ∧ width ≤ 32 ∧ field < 2 ^ width) → signExtend? field width = none)

/-- `encode` is the sum of the shifted fields, and equals six inserts, in any order, into the Word 0 (41_codec.md
R114). -/
def Obligations.EncodeIsSixInserts : Prop :=
  ∀ (m : OpcodeMap) (i : Instr), i.wellFormed = true → ∃ w, encodeWith m i = .ok w ∧
    (w.toNat : Int) = (m.number i.opcode).toNat * 2 ^ 26 + i.pred.toNat * 2 ^ 22 + i.rt.toNat * 2 ^ 18
      + i.rs1.toNat * 2 ^ 14 + i.rs2.toNat * 2 ^ 10 + i.off % 2 ^ 10 ∧
    ∀ l : List (BitField × Int), l.Perm (fieldValues m i) → l.foldl (fun x fv => fv.1.insert fv.2 x) 0#32 = w

/-- `encode` fails exactly outside the ranges of the fields, for an unchecked record and for an instruction (R115). -/
def Obligations.EncodeFailsExactly : Prop :=
  (∀ r : InstrRecord, (∃ w, encodeRecord r = .ok w) ↔
    r.opcode ≠ none ∧ (0 ≤ r.predicate ∧ r.predicate ≤ 15) ∧ (0 ≤ r.regTarget ∧ r.regTarget ≤ 15) ∧
      (0 ≤ r.regSrc1 ∧ r.regSrc1 ≤ 15) ∧ (0 ≤ r.regSrc2 ∧ r.regSrc2 ≤ 15) ∧ (-512 ≤ r.offset ∧ r.offset ≤ 511)) ∧
  (∀ i : Instr, (∃ w, encode i = .ok w) ↔ -512 ≤ i.off ∧ i.off ≤ 511)

/-- Decode fails exactly on the opcode numbers 4 and 8 to 63, whatever the other 26 bits are, and under any map exactly
on the numbers it assigns to no mnemonic (30_encoding.md R78, 41_codec.md R111; opcode numbers: log entry 6). -/
def Obligations.DecodeFailsExactly : Prop :=
  (∀ w : Word, (∀ i, decode w ≠ .ok i) ↔ w.extractLsb' 26 6 = 4#6 ∨ 8 ≤ (w.extractLsb' 26 6).toNat) ∧
  (∀ (m : OpcodeMap) (w : Word), (∀ i, decodeWith m w ≠ .ok i) ↔ ∀ op, m.number op ≠ w.extractLsb' 26 6)

/-- Decode and encode agree: under every opcode map, every representable instruction is encoded, and decoding its Word
gives it back with every field (R116). -/
def Obligations.DecodeOfEncode : Prop :=
  (∀ (m : OpcodeMap) (i : Instr), i.wellFormed = true → ∃ w, encodeWith m i = .ok w ∧ decodeWith m w = .ok i) ∧
  (∀ i : Instr, i.wellFormed = true → ∃ w, encode i = .ok w ∧ decode w = .ok i)

/-- Encode and decode agree: every Word with a recognised opcode decodes, and encoding the instruction gives the Word
back, so no bit of it is ignored (R117). -/
def Obligations.EncodeOfDecode : Prop :=
  ∀ (m : OpcodeMap) (w : Word), (∃ op, m.number op = w.extractLsb' 26 6) →
    ∃ i, decodeWith m w = .ok i ∧ encodeWith m i = .ok w

/-! ## The ALU -/

/-- The operands of an instruction whose offset is in its field's range fit the ALU's 33-bit signed inputs
(43_control_fsm.md R157). -/
def Obligations.OperandsFit33Bits : Prop :=
  ∀ (s : State) (a b : RegIdx) (off : Int), -512 ≤ off → off ≤ 511 →
    operand1 a s = (s.getReg a).toInt ∧ operand2 b off s = (s.getReg b).toInt + off ∧
    -2 ^ 31 ≤ operand1 a s ∧ operand1 a s ≤ 2 ^ 31 - 1 ∧
    -2 ^ 31 - 512 ≤ operand2 b off s ∧ operand2 b off s ≤ 2 ^ 31 + 510

/-- The wires carry the exact operands: the ALU at its 33-bit ports, driven with the sign-extended registers and the
sign-extended 10-bit offset, returns what the instruction's ALU call returns (48_interfaces.md R211). -/
def Obligations.AluPortsCarryExactOperands : Prop :=
  ∀ (op : Opcode) (a b : RegIdx) (off : BitVec 10) (s : State),
    aluPort s.params.opcodes (s.params.opcodes.number op) (aluIn1 a s) (aluIn2 b off s) = aluCall op a b off.toInt s

/-- The decoder's port agrees with decode: `valid` is 1 exactly when the Word decodes, and the other outputs are then the
fields of the instruction (48_interfaces.md R207). -/
def Obligations.DecoderPortAgrees : Prop :=
  ∀ (m : OpcodeMap) (w : Word), ((decoderPort m w).valid = true ↔ ∃ i, decodeWith m w = .ok i) ∧
    ∀ i, decodeWith m w = .ok i → (decoderPort m w).opcode = m.number i.opcode ∧
      (decoderPort m w).predicate = i.pred ∧ (decoderPort m w).regTarget = i.rt ∧
      (decoderPort m w).regSrc1 = i.rs1 ∧ (decoderPort m w).regSrc2 = i.rs2 ∧ (decoderPort m w).offset.toInt = i.off

/-- Exact or V: the ALU returns the exact value of the operation table with the flag of its sign, or (0, V), the latter
exactly when there is no exact value that fits 32 signed bits (42_alu.md R138). -/
def Obligations.AluIsExactOrV : Prop :=
  ∀ (m : OpcodeMap) (op : Opcode) (x y : Int),
    (∃ r, exactOf op x y = some r ∧ -2 ^ 31 ≤ r ∧ r ≤ 2 ^ 31 - 1 ∧
      (aluExecWith m (m.number op) x y).result.toInt = r ∧
      (aluExecWith m (m.number op) x y).flag = (if r = 0 then 2#4 else if r < 0 then 1#4 else 4#4)) ∨
    ((∀ r, exactOf op x y = some r → ¬ (-2 ^ 31 ≤ r ∧ r ≤ 2 ^ 31 - 1)) ∧
      (aluExecWith m (m.number op) x y).result = 0#32 ∧ (aluExecWith m (m.number op) x y).flag = 8#4)

/-- The flag is exactly one of V, M, Z, P, and unless it is V it is read off the 32-bit result: M is bit 31, Z is zero,
P is neither (R128). -/
def Obligations.AluFlagIsSignOfResult : Prop :=
  ∀ (m : OpcodeMap) (n : BitVec 6) (x y : Int),
    (aluExecWith m n x y).flag = 8#4 ∨
    ((aluExecWith m n x y).flag = 1#4 ∧ (aluExecWith m n x y).result.getLsbD 31 = true) ∨
    ((aluExecWith m n x y).flag = 2#4 ∧ (aluExecWith m n x y).result = 0#32) ∨
    ((aluExecWith m n x y).flag = 4#4 ∧ (aluExecWith m n x y).result.getLsbD 31 = false ∧ (aluExecWith m n x y).result ≠ 0#32)

/-- An opcode number that the map assigns to no mnemonic gives (0, V) for all inputs (R132). -/
def Obligations.AluTableMissFails : Prop :=
  ∀ (m : OpcodeMap) (n : BitVec 6), (∀ op, m.number op ≠ n) → ∀ x y : Int,
    (aluExecWith m n x y).result = 0#32 ∧ (aluExecWith m n x y).flag = 8#4

/-- DIV rounds toward zero at every sign combination: where it does not fail, the magnitude of the quotient is the
largest whose product with the divisor does not exceed the dividend's, and its sign is the product of theirs (R136). -/
def Obligations.DivTruncatesTowardZero : Prop :=
  ∀ (m : OpcodeMap) (x y : Int), (aluExecWith m (m.number .div) x y).flag ≠ 8#4 →
    y ≠ 0 ∧
    |(aluExecWith m (m.number .div) x y).result.toInt| * |y| ≤ |x| ∧
    |x| < (|(aluExecWith m (m.number .div) x y).result.toInt| + 1) * |y| ∧
    0 ≤ (aluExecWith m (m.number .div) x y).result.toInt * (x * y)

/-! ## The instructions -/

/-- ADD: its encoding, and its whole effect when executed (44_arithmetic.md R180). -/
def Obligations.AddExecutes : Prop :=
  SelectedBy 0x0C000000#32 Instr.add ∧
  ∀ (p : Flags) (t a b : RegIdx) (off : Int) (s : State), s.cond &&& p ≠ 0#4 →
    ∃ u, exec (.add p t a b off) s = .next u ∧
      ArithmeticEffect t (some (opOne a s + opTwo b off s)) s u

/-- SUB: its encoding, and its whole effect when executed (R181). -/
def Obligations.SubExecutes : Prop :=
  SelectedBy 0x14000000#32 Instr.sub ∧
  ∀ (p : Flags) (t a b : RegIdx) (off : Int) (s : State), s.cond &&& p ≠ 0#4 →
    ∃ u, exec (.sub p t a b off) s = .next u ∧
      ArithmeticEffect t (some (opOne a s - opTwo b off s)) s u

/-- MUL: its encoding, and its whole effect when executed (R182). -/
def Obligations.MulExecutes : Prop :=
  SelectedBy 0x18000000#32 Instr.mul ∧
  ∀ (p : Flags) (t a b : RegIdx) (off : Int) (s : State), s.cond &&& p ≠ 0#4 →
    ∃ u, exec (.mul p t a b off) s = .next u ∧
      ArithmeticEffect t (some (opOne a s * opTwo b off s)) s u

/-- DIV: its encoding, and its whole effect when executed, a division by zero included (R183). -/
def Obligations.DivExecutes : Prop :=
  SelectedBy 0x1C000000#32 Instr.div ∧
  ∀ (p : Flags) (t a b : RegIdx) (off : Int) (s : State), s.cond &&& p ≠ 0#4 →
    ∃ u, exec (.div p t a b off) s = .next u ∧
      ArithmeticEffect t (if opTwo b off s = 0 then none else some ((opOne a s).tdiv (opTwo b off s))) s u

/-- LOAD: its encoding; executed at a valid address, the target holds the Word there (register 15 exactly that Word),
cond is the flag of the address, the program counter advances and nothing else changes; at any other address the fault
LoadOutOfRange is raised after phase 5, whose writes stay (45_load_store.md R190, 60_exceptions.md R234). -/
def Obligations.LoadExecutes : Prop :=
  SelectedBy 0x04000000#32 Instr.load ∧
  (∀ (p : Flags) (t a b : RegIdx) (off : Int) (s : State), s.cond &&& p ≠ 0#4 →
    s.mem.validAddr (resultWord (addressSum a b off s)) = true →
    ∃ u, exec (.load p t a b off) s = .next u ∧
      (∀ r, u.getReg r =
        if r = 0#4 then 0#32
        else if r = t then s.mem.peek (resultWord (addressSum a b off s)).toNat
        else if r = 15#4 then s.getReg 15#4 + 1#32
        else s.getReg r) ∧
      u.cond = resultFlag (addressSum a b off s) ∧ u.control = s.control ∧ u.fault = s.fault ∧ SameMemory s u) ∧
  (∀ (p : Flags) (t a b : RegIdx) (off : Int) (s : State), s.cond &&& p ≠ 0#4 →
    s.mem.validAddr (resultWord (addressSum a b off s)) = false →
    ∃ u, exec (.load p t a b off) s = .next u ∧
      (∀ r, u.getReg r = regAfterWrite t (resultWord (addressSum a b off s)) s r) ∧
      u.cond = resultFlag (addressSum a b off s) ∧ u.control = .faulted ∧
      u.fault = { cause := .loadOutOfRange, address := resultWord (addressSum a b off s), word := 0#32 } ∧
      SameMemory s u)

/-- STORE: its encoding; executed at a valid address, the target is overwritten with the address and what it then reads
(the address; 0 for register 0; one past the address for register 15) is stored there, every other cell as before; at
any other address the fault StoreOutOfRange is raised after phase 5 and memory is unchanged (R191, 60_exceptions.md
R234). The address is the one the meaning computes, `(aluCall .store a b off s).result`. -/
def Obligations.StoreExecutes : Prop :=
  SelectedBy 0x08000000#32 Instr.store ∧
  (∀ (a b : RegIdx) (off : Int) (s : State),
    (aluCall .store a b off s).result = resultWord (addressSum a b off s)) ∧
  (∀ (p : Flags) (t a b : RegIdx) (off : Int) (s : State), s.cond &&& p ≠ 0#4 →
    s.mem.validAddr (aluCall .store a b off s).result = true →
    ∃ u, exec (.store p t a b off) s = .next u ∧
      (∀ r, u.getReg r = regAfterWrite t (aluCall .store a b off s).result s r) ∧
      u.cond = resultFlag (addressSum a b off s) ∧ u.control = s.control ∧ u.fault = s.fault ∧
      u.mem.capacity = s.mem.capacity ∧ u.params = s.params ∧
      u.mem.peek (aluCall .store a b off s).result.toNat =
        (if t = 0#4 then 0#32
         else if t = 15#4 then (aluCall .store a b off s).result + 1#32
         else (aluCall .store a b off s).result) ∧
      ∀ x, x ≠ (aluCall .store a b off s).result.toNat → u.mem.peek x = s.mem.peek x) ∧
  (∀ (p : Flags) (t a b : RegIdx) (off : Int) (s : State), s.cond &&& p ≠ 0#4 →
    s.mem.validAddr (aluCall .store a b off s).result = false →
    ∃ u, exec (.store p t a b off) s = .next u ∧
      (∀ r, u.getReg r = regAfterWrite t (aluCall .store a b off s).result s r) ∧
      u.cond = resultFlag (addressSum a b off s) ∧ u.control = .faulted ∧
      u.fault = { cause := .storeOutOfRange, address := (aluCall .store a b off s).result, word := 0#32 } ∧
      SameMemory s u)

/-- HALT: its encoding; executed, it writes 0 to its target, sets cond to Z, advances the program counter and enters
Halted, whatever its sources and offset are; skipped, it only advances the program counter (46_halt.md R200). -/
def Obligations.HaltExecutes : Prop :=
  SelectedBy 0x00000000#32 Instr.halt ∧
  (∀ (p : Flags) (t a b : RegIdx) (off : Int) (s : State), s.cond &&& p ≠ 0#4 →
    ∃ u, exec (.halt p t a b off) s = .next u ∧
      (∀ r, u.getReg r = regAfterWrite t 0#32 s r) ∧ u.cond = 2#4 ∧ u.control = .halted ∧ u.fault = s.fault ∧
      SameMemory s u) ∧
  (∀ (p : Flags) (t a b a' b' : RegIdx) (off off' : Int) (s : State),
    exec (.halt p t a b off) s = exec (.halt p t a' b' off') s) ∧
  (∀ (p : Flags) (t a b : RegIdx) (off : Int) (s : State), s.cond &&& p = 0#4 →
    ∃ u, exec (.halt p t a b off) s = .next u ∧
      (∀ r, u.getReg r = if r = 15#4 then s.getReg 15#4 + 1#32 else s.getReg r) ∧ u.cond = s.cond ∧
      u.control = s.control ∧ u.fault = s.fault ∧ SameMemory s u)

/-- A skipped instruction of any opcode advances the program counter by 1 and does nothing else (43_control_fsm.md
R156). -/
def Obligations.SkippedInstructionOnlyAdvancesPc : Prop :=
  ∀ (i : Instr) (s : State), s.cond &&& i.pred = 0#4 →
    ∃ u, exec i s = .next u ∧
      (∀ r, u.getReg r = if r = 15#4 then s.getReg 15#4 + 1#32 else s.getReg r) ∧ u.cond = s.cond ∧
      u.control = s.control ∧ u.fault = s.fault ∧ SameMemory s u

/-- After an executed instruction of any opcode cond is the one flag the ALU returned, access faults included (R160). -/
def Obligations.ExecutedInstructionReplacesCond : Prop :=
  ∀ (i : Instr) (s : State), s.cond &&& i.pred ≠ 0#4 →
    ∃ u, exec i s = .next u ∧
      u.cond = (aluExecWith s.params.opcodes (s.params.opcodes.number i.opcode) (opOne i.rs1 s)
        (opTwo i.rs2 i.off s)).flag ∧
      (u.cond = 1#4 ∨ u.cond = 2#4 ∨ u.cond = 4#4 ∨ u.cond = 8#4)

/-- Where the program counter stands after an executed instruction whose target is register 15: one past the ALU result
for the arithmetic opcodes and STORE (1 where the ALU failed), exactly the loaded Word for LOAD at a valid address, and
1 for HALT (R164). -/
def Obligations.ControlTransferTable : Prop :=
  ∀ (i : Instr) (s : State), s.cond &&& i.pred ≠ 0#4 → i.rt = 15#4 →
    ∃ u, exec i s = .next u ∧
      u.getReg 15#4 =
        if i.opcode = .load ∧
            s.mem.validAddr (resultWord (exactOf .load (opOne i.rs1 s) (opTwo i.rs2 i.off s))) = true then
          s.mem.peek (resultWord (exactOf .load (opOne i.rs1 s) (opTwo i.rs2 i.off s))).toNat
        else resultWord (exactOf i.opcode (opOne i.rs1 s) (opTwo i.rs2 i.off s)) + 1#32

/-- What the registers an instruction does not name hold decides nothing: two states that agree on cond, control, the
fault record, memory, register 15 and the two sources give the same cond, control, fault record, memory, register 15
and, when executed, target; and every other register is as it was in each (10_state.md R27). -/
def Obligations.NamedRegistersDecideOutcome : Prop :=
  ∀ (i : Instr) (s₁ s₂ : State), s₁.cond = s₂.cond → s₁.control = s₂.control → s₁.fault = s₂.fault →
    s₁.mem = s₂.mem → s₁.getReg 15#4 = s₂.getReg 15#4 → s₁.getReg i.rs1 = s₂.getReg i.rs1 →
    s₁.getReg i.rs2 = s₂.getReg i.rs2 →
    ∃ u₁ u₂, exec i s₁ = .next u₁ ∧ exec i s₂ = .next u₂ ∧ u₁.cond = u₂.cond ∧ u₁.control = u₂.control ∧
      u₁.fault = u₂.fault ∧ u₁.mem = u₂.mem ∧ u₁.getReg 15#4 = u₂.getReg 15#4 ∧
      (s₁.cond &&& i.pred ≠ 0#4 → u₁.getReg i.rt = u₂.getReg i.rt) ∧
      ∀ r, r ≠ 15#4 → r ≠ i.rt → u₁.getReg r = s₁.getReg r ∧ u₂.getReg r = s₂.getReg r

/-! ## Faults, the observer and the whole machine -/

/-- The two step faults: at a program counter that is not valid the step raises FetchOutOfRange, at a Word that does
not decode DecodeError with that address and Word, whatever its other bits are; nothing else changes and no record is
presented (43_control_fsm.md R152, R153, R154, 60_exceptions.md R234). -/
def Obligations.StepFaultsArePrecise : Prop :=
  ∀ s : State, s.control = .running →
    (s.mem.validAddr (s.getReg 15#4) = false →
      step s = .next { s with
        control := .faulted, fault := { cause := .fetchOutOfRange, address := s.getReg 15#4, word := 0#32 } } ∧
      observed s = none) ∧
    (∀ w, s.mem.read (s.getReg 15#4) = some w → (∀ i, decodeWith s.params.opcodes w ≠ .ok i) →
      step s = .next { s with
        control := .faulted, fault := { cause := .decodeError, address := s.getReg 15#4, word := w } } ∧
      observed s = none)

/-- A record is presented exactly by the steps that reach phase 3, with the address, the Word and the decoded
instruction of before the step, whether it is executed or skipped (R154). -/
def Obligations.ObserverSeesDecodedSteps : Prop :=
  ∀ (s : State) (rec : TraceRecord), observed s = some rec ↔
    s.control = .running ∧ rec.pcAddress = s.getReg 15#4 ∧ s.mem.read (s.getReg 15#4) = some rec.rawWord ∧
      decodeWith s.params.opcodes rec.rawWord = .ok rec.decoded

/-- The records of a run are those of its steps, in step order, none dropped or duplicated (48_interfaces.md R220). -/
def Obligations.TraceIsStepByStep : Prop :=
  ∀ (n : Nat) (s : State), traceOf n s = (List.range n).filterMap (fun k => observed (runSteps k s))

/-- The transitions of the control state: reset and an accepted start give Running; a step exists only in Running and
goes to Halted exactly when it executes HALT, to Faulted exactly when it raises one of the four faults, and else stays in
Running; a start in Faulted is refused (43_control_fsm.md R167). -/
def Obligations.ControlTransitions : Prop :=
  (∀ s : State, (hostReset s).control = .running) ∧
  (∀ (a : Word) (s : State), s.control ≠ .faulted → (hostStart a s).control = .running) ∧
  (∀ (a : Word) (s : State), s.control = .faulted → hostStart a s = s) ∧
  (∀ s u : State, step s = .next u → s.control = .running ∧
    (u.control = .halted ↔ ∃ i, Executes s i ∧ i.opcode = .halt) ∧
    (u.control = .faulted ↔
      s.mem.validAddr (s.getReg 15#4) = false ∨
      (∃ w, s.mem.read (s.getReg 15#4) = some w ∧ ∀ i, decodeWith s.params.opcodes w ≠ .ok i) ∨
      (∃ i, Executes s i ∧ (i.opcode = .load ∨ i.opcode = .store) ∧
        s.mem.validAddr (resultWord (addressSum i.rs1 i.rs2 i.off s)) = false)))

/-- Memory changes only by STORE: a cell that reads otherwise after a step is the one at the valid address of an executed
STORE, and no step changes the capacity (10_state.md R39, 20_memory.md R56). -/
def Obligations.OnlyStoreChangesMemory : Prop :=
  ∀ s u : State, step s = .next u → u.mem.capacity = s.mem.capacity ∧
    ∀ x, u.mem.peek x ≠ s.mem.peek x → ∃ p t a b off, Executes s (.store p t a b off) ∧
      s.mem.validAddr (aluCall .store a b off s).result = true ∧ x = (aluCall .store a b off s).result.toNat

/-- An instruction raises no fault but LOAD its LoadOutOfRange and STORE its StoreOutOfRange, and only executed ones
(60_exceptions.md R232). -/
def Obligations.OnlyAccessesFault : Prop :=
  ∀ (i : Instr) (s u : State), s.control ≠ .faulted → exec i s = .next u → u.control = .faulted →
    s.cond &&& i.pred ≠ 0#4 ∧
    ((i.opcode = .load ∧ u.fault.cause = .loadOutOfRange) ∨ (i.opcode = .store ∧ u.fault.cause = .storeOutOfRange))

/-- A STORE is seen by the very next fetch: when the program counter after the step is the address stored to, the next
step runs what the stored Word decodes to (20_memory.md R67). -/
def Obligations.StoreIsSeenByNextFetch : Prop :=
  ∀ (s u : State) (p : Flags) (t a b : RegIdx) (off : Int), Executes s (.store p t a b off) →
    s.mem.validAddr (aluCall .store a b off s).result = true → step s = .next u →
    u.getReg 15#4 = (aluCall .store a b off s).result →
    u.mem.read (u.getReg 15#4) = some (u.getReg t) ∧
      ∀ i, decodeWith s.params.opcodes (u.getReg t) = .ok i → step u = exec i u

/-- Every step keeps the invariant: memory in canonical form within a legal capacity, cond one of its five values, and a
fault record that is empty unless the machine is Faulted and then explains the fault (10_state.md R33, R37, 20_memory.md R52,
60_exceptions.md R231). -/
def Obligations.GoodIsKeptByStep : Prop := ∀ s u : State, s.Good → step s = .next u → u.Good

/-- Every transaction of the host keeps the invariant (48_interfaces.md R225). -/
def Obligations.GoodIsKeptByHost : Prop := ∀ (c : HostCommand) (s : State), s.Good → (hostApply c s).Good

/-! ## The parameters and the host's reads -/

/-- The parameters and the capacity are fixed for the life of the machine: no instruction, no step and no transaction of
the host changes them (10_state.md R38, 20_memory.md R52). -/
def Obligations.ParametersAreFixed : Prop :=
  (∀ (i : Instr) (s u : State), exec i s = .next u → u.params = s.params ∧ u.mem.capacity = s.mem.capacity) ∧
  (∀ s u : State, step s = .next u → u.params = s.params ∧ u.mem.capacity = s.mem.capacity) ∧
  (∀ (c : HostCommand) (s : State), (hostApply c s).params = s.params ∧
    (hostApply c s).mem.capacity = s.mem.capacity)

/-- The entry point after every reset is the `START_ADDR` the machine was configured with, whatever the host and the
program did since, and the first step from there reads the Word at that address (70_reset_and_hazards.md R261,
48_interfaces.md R221). -/
def Obligations.ResetReturnsToStartAddress : Prop :=
  ∀ (p : Parameters) (n : Nat) (image : List (Word × Word)) (cs : List HostCommand),
    (hostReset (cs.foldl (fun s c => hostApply c s) (bootWith p n image))).getReg 15#4 = p.startAddr ∧
    ((cs.foldl (fun s c => hostApply c s) (bootWith p n image)).mem.validAddr p.startAddr = true → ∀ i,
      decodeWith p.opcodes
        ((cs.foldl (fun s c => hostApply c s) (bootWith p n image)).mem.peek p.startAddr.toNat) = .ok i →
      step (hostReset (cs.foldl (fun s c => hostApply c s) (bootWith p n image)))
        = exec i (hostReset (cs.foldl (fun s c => hostApply c s) (bootWith p n image))))

/-- The parameters decide nothing of what an instruction does, and so hold for any opcode map: with other parameters the
same instruction gives the same next state but for them (30_encoding.md R76). -/
def Obligations.ParametersDecideNoEffect : Prop :=
  ∀ (i : Instr) (s u : State) (p : Parameters), exec i s = .next u →
    exec i { s with params := p } = .next { u with params := p }

/-- The same program under another `OPCODE_MAP`: when the Word at the program counter encodes a representable instruction
under the machine's own map, the step is that instruction's, whatever the map is (30_encoding.md R76, R77). -/
def Obligations.StepFollowsOwnOpcodeMap : Prop :=
  ∀ (i : Instr) (s : State) (w : Word), i.wellFormed = true → encodeWith s.params.opcodes i = .ok w →
    s.control = .running → s.mem.read (s.getReg 15#4) = some w →
    step s = exec i s ∧ observed s = some { pcAddress := s.getReg 15#4, rawWord := w, decoded := i }

/-- The host's reads between steps show the whole state: the status outputs are the control state and the fault record
with its 3-bit code, and two machines that answer alike to every read have the same registers, cond, control state, fault
record and readable memory (48_interfaces.md R224). -/
def Obligations.HostReadsShowWholeState : Prop :=
  (∀ s : State, hostStatus s = (s.control, s.fault.cause.code, s.fault.address, s.fault.word) ∧
    hostReadCond s = s.cond ∧ (∀ r, hostReadReg r s = s.getReg r) ∧
    ∀ a, hostReadMem a s = if s.mem.validAddr a then some (s.mem.peek a.toNat) else none) ∧
  ∀ s t : State, hostStatus s = hostStatus t → hostReadCond s = hostReadCond t →
    (∀ r, hostReadReg r s = hostReadReg r t) → (∀ a, hostReadMem a s = hostReadMem a t) →
    s.regs = t.regs ∧ s.cond = t.cond ∧ s.control = t.control ∧ s.fault = t.fault ∧
      ∀ a, s.mem.read a = t.mem.read a
end

