-- ==== Sys2Proof/Laws/BitField.lean ====
section
/-! SUPPORT. What the BitField functions compute, in the terms of arithmetic and of BitVec. -/

namespace Sys2Proof.Machine

theorem width_pos (f : BitField) : 0 < f.width := Nat.succ_pos _

/-- The field ends within the Word. -/
theorem fromBit_add_width (f : BitField) : f.fromBit + f.width = f.toBit + 1 := by
  have := f.valid; unfold BitField.width; omega

theorem fromBit_add_width_le (f : BitField) : f.fromBit + f.width ≤ 32 := by
  have := f.valid; have := fromBit_add_width f; omega

theorem lowmask_eq (f : BitField) : f.lowmask = 2 ^ f.width - 1 := by
  simp [BitField.lowmask, Nat.shiftLeft_eq]

/-- `extract` as a quotient and a remainder. -/
theorem extract_eq_div_mod (f : BitField) (w : Word) : f.extract w = w.toNat / 2 ^ f.fromBit % 2 ^ f.width := by
  rw [BitField.extract, lowmask_eq, Nat.and_two_pow_sub_one_eq_mod, Nat.shiftRight_eq_div_pow]

/-- `extract` as the slice of the Word. -/
theorem extract_eq_slice (f : BitField) (w : Word) : f.extract w = (w.extractLsb' f.fromBit f.width).toNat := by
  rw [extract_eq_div_mod, BitVec.extractLsb'_toNat, Nat.shiftRight_eq_div_pow]

/-- A field value of `n + 1` bits has its top bit set exactly when it is at least `2 ^ n`. -/
theorem and_topBit_ne_zero {v n : Nat} (h : v < 2 ^ (n + 1)) : v &&& 1 <<< n ≠ 0 ↔ 2 ^ n ≤ v := by
  rw [Nat.shiftLeft_eq, one_mul, Nat.and_two_pow]
  rw [Nat.testBit_eq_decide_div_mod_eq]
  have hlt : v / 2 ^ n < 2 := Nat.div_lt_of_lt_mul (by rwa [pow_succ] at h)
  have hp : 0 < 2 ^ n := by positivity
  have hiff : 2 ^ n ≤ v ↔ v / 2 ^ n = 1 := by
    rw [← Nat.one_le_div_iff hp]
    exact ⟨fun h1 => Nat.le_antisymm (Nat.lt_succ_iff.1 hlt) h1, fun h1 => h1.ge⟩
  rw [hiff]
  by_cases hq : v / 2 ^ n = 1
  · simp [hq]
  · have h0 : v / 2 ^ n = 0 := by
      generalize v / 2 ^ n = q at hlt hq ⊢
      omega
    simp [h0]

/-- `extract_signed` as the two's-complement reading of the slice. -/
theorem extractSigned_eq_slice (f : BitField) (w : Word) :
    f.extractSigned w = (w.extractLsb' f.fromBit f.width).toInt := by
  obtain ⟨n, hn⟩ : ∃ n, f.width = n + 1 := ⟨f.width - 1, by have := width_pos f; omega⟩
  have hlt : (w.extractLsb' f.fromBit f.width).toNat < 2 ^ (n + 1) := by
    rw [← hn]; exact (w.extractLsb' f.fromBit f.width).isLt
  rw [BitField.extractSigned, extract_eq_slice, BitVec.toInt_eq_toNat_cond]
  have key := and_topBit_ne_zero hlt
  simp only [show f.width - 1 = n by omega, Nat.shiftLeft_eq, one_mul] at key ⊢
  have h2 : 2 * (w.extractLsb' f.fromBit f.width).toNat < 2 ^ f.width ↔
      ¬ 2 ^ n ≤ (w.extractLsb' f.fromBit f.width).toNat := by
    rw [hn, pow_succ]; omega
  by_cases hc : 2 ^ n ≤ (w.extractLsb' f.fromBit f.width).toNat
  · rw [if_pos (key.2 hc), if_neg (fun h => h2.1 h hc)]
  · rw [if_neg (fun h => hc (key.1 h)), if_pos (h2.2 hc)]

/-! ## insert -/

theorem getLsbD_posmask (f : BitField) {j : Nat} (hj : j < 32) :
    f.posmask.getLsbD j = (decide (f.fromBit ≤ j) && decide (j < f.fromBit + f.width)) := by
  unfold BitField.posmask
  rw [BitVec.getLsbD_ofNat, lowmask_eq, Nat.testBit_shiftLeft, Nat.testBit_two_pow_sub_one]
  by_cases h : f.fromBit ≤ j
  · simp [h, hj]; omega
  · simp [h]

/-- Each bit after an insert. -/
theorem getLsbD_insert (f : BitField) (v : Int) (w : Word) {j : Nat} (hj : j < 32) :
    (f.insert v w).getLsbD j =
      if f.fromBit ≤ j ∧ j < f.fromBit + f.width then (bits32 v).getLsbD (j - f.fromBit) else w.getLsbD j := by
  unfold BitField.insert
  rw [BitVec.getLsbD_or, BitVec.getLsbD_and, BitVec.getLsbD_not, getLsbD_posmask _ hj, BitVec.getLsbD_ofNat,
    Nat.testBit_shiftLeft, lowmask_eq, Nat.testBit_and, Nat.testBit_two_pow_sub_one]
  by_cases h : f.fromBit ≤ j <;> by_cases h2 : j < f.fromBit + f.width
  · have : j - f.fromBit < f.width := by omega
    simp [h, h2, hj, this, BitVec.getLsbD]
  · have : ¬ j - f.fromBit < f.width := by omega
    simp [h2, hj, this]
  · simp [h, hj]
  · simp [h, hj]

/-- A narrower pattern of an integer is the low bits of its 32-bit pattern. -/
theorem setWidth_bits32 (v : Int) {n : Nat} (hn : n ≤ 32) : (bits32 v).setWidth n = BitVec.ofInt n v := by
  apply BitVec.eq_of_toNat_eq
  have hd : (2 : Int) ^ n ∣ 2 ^ 32 := pow_dvd_pow 2 hn
  have h0 : (0 : Int) ≤ v % 2 ^ 32 := Int.emod_nonneg _ (by positivity)
  have h1 : (0 : Int) ≤ v % 2 ^ n := Int.emod_nonneg _ (by positivity)
  rw [BitVec.toNat_setWidth, BitVec.toNat_ofInt, BitVec.toNat_ofInt]
  zify
  rw [Int.toNat_of_nonneg h0, Int.toNat_of_nonneg h1]
  exact Int.emod_emod_of_dvd v hd

/-- The field after an insert holds the low bits of the value. -/
theorem slice_insert (f : BitField) (v : Int) (w : Word) :
    (f.insert v w).extractLsb' f.fromBit f.width = BitVec.ofInt f.width v := by
  have hw := fromBit_add_width_le f
  rw [← setWidth_bits32 v (by omega)]
  apply BitVec.eq_of_getLsbD_eq
  intro i hi
  rw [BitVec.getLsbD_extractLsb', getLsbD_insert _ _ _ (by omega), BitVec.getLsbD_setWidth]
  simp [hi]

/-! ## The six fields of the instruction word -/

theorem opcodeField_extract (w : Word) : opcodeField.extract w = (w.extractLsb' 26 6).toNat := extract_eq_slice _ w
theorem predicateField_extract (w : Word) : predicateField.extract w = (w.extractLsb' 22 4).toNat :=
  extract_eq_slice _ w
theorem regTargetField_extract (w : Word) : regTargetField.extract w = (w.extractLsb' 18 4).toNat :=
  extract_eq_slice _ w
theorem regSrc1Field_extract (w : Word) : regSrc1Field.extract w = (w.extractLsb' 14 4).toNat := extract_eq_slice _ w
theorem regSrc2Field_extract (w : Word) : regSrc2Field.extract w = (w.extractLsb' 10 4).toNat := extract_eq_slice _ w
theorem offsetField_extractSigned (w : Word) : offsetField.extractSigned w = (w.extractLsb' 0 10).toInt :=
  extractSigned_eq_slice _ w

end Sys2Proof.Machine
end

