-- ==== Sys2Proof/Laws/Decode.lean ====
section
/-! SUPPORT. What decode and encode can answer, once each. -/

namespace Sys2Proof

open Sys2Proof.Machine

@[simp] theorem ofFields_opcode (op : Opcode) (p : Flags) (t a b : RegIdx) (o : Int) :
    (Instr.ofFields op p t a b o).opcode = op := by cases op <;> rfl
@[simp] theorem ofFields_pred (op : Opcode) (p : Flags) (t a b : RegIdx) (o : Int) :
    (Instr.ofFields op p t a b o).pred = p := by cases op <;> rfl
@[simp] theorem ofFields_rt (op : Opcode) (p : Flags) (t a b : RegIdx) (o : Int) :
    (Instr.ofFields op p t a b o).rt = t := by cases op <;> rfl
@[simp] theorem ofFields_rs1 (op : Opcode) (p : Flags) (t a b : RegIdx) (o : Int) :
    (Instr.ofFields op p t a b o).rs1 = a := by cases op <;> rfl
@[simp] theorem ofFields_rs2 (op : Opcode) (p : Flags) (t a b : RegIdx) (o : Int) :
    (Instr.ofFields op p t a b o).rs2 = b := by cases op <;> rfl
@[simp] theorem ofFields_off (op : Opcode) (p : Flags) (t a b : RegIdx) (o : Int) :
    (Instr.ofFields op p t a b o).off = o := by cases op <;> rfl

/-- An instruction is its opcode and its five operand fields. -/
theorem ofFields_self (i : Instr) : Instr.ofFields i.opcode i.pred i.rt i.rs1 i.rs2 i.off = i := by cases i <;> rfl

theorem mem_all (op : Opcode) : op ∈ Opcode.all := by cases op <;> decide

/-- A number that answers a mnemonic is that mnemonic's. -/
theorem opcodeOf_eq_some {m : OpcodeMap} {n : BitVec 6} {op : Opcode} (h : opcodeOf m n = some op) : m.number op = n := by
  simpa using List.find?_some h

/-- An opcode map is injective. -/
theorem number_injective (m : OpcodeMap) : Function.Injective m.number := by
  have h := m.distinct
  simp only [List.nodup_cons, List.mem_cons, List.not_mem_nil, or_false, not_or, List.nodup_nil, not_false_eq_true,
    and_true] at h
  intro a b e
  cases a <;> cases b <;> first | rfl | exact absurd e (by simp only [OpcodeMap.number]; tauto)

/-- A mnemonic's number answers that mnemonic. -/
theorem opcodeOf_number (m : OpcodeMap) (op : Opcode) : opcodeOf m (m.number op) = some op := by
  cases h : opcodeOf m (m.number op) with
  | none => exact absurd (List.find?_eq_none.1 h op (mem_all op)) (by simp)
  | some op' => rw [number_injective m (opcodeOf_eq_some h)]

/-- A number answers no mnemonic exactly when the map assigns it to none. -/
theorem opcodeOf_eq_none {m : OpcodeMap} {n : BitVec 6} : opcodeOf m n = none ↔ ∀ op, m.number op ≠ n := by
  simp only [opcodeOf, List.find?_eq_none, beq_iff_eq]
  exact ⟨fun h op => h op (mem_all op), fun h op _ => h op⟩

/-- `decode` in terms of slices of the Word. -/
theorem decodeWith_eq (m : OpcodeMap) (w : Word) :
    decodeWith m w =
      match opcodeOf m (w.extractLsb' 26 6) with
      | none => .error (.unrecognisedOpcode (w.extractLsb' 26 6))
      | some op => .ok (Instr.ofFields op (w.extractLsb' 22 4) (w.extractLsb' 18 4) (w.extractLsb' 14 4)
          (w.extractLsb' 10 4) (w.extractLsb' 0 10).toInt) := by
  unfold decodeWith
  rw [opcodeField_extract, BitVec.ofNat_toNat, BitVec.setWidth_eq]
  cases opcodeOf m (w.extractLsb' 26 6) <;>
  simp only [predicateField_extract, regTargetField_extract, regSrc1Field_extract,
    regSrc2Field_extract, offsetField_extractSigned, BitVec.ofNat_toNat, BitVec.setWidth_eq]

/-- What a Word that decodes holds in its fields. -/
theorem decodeWith_eq_ok {m : OpcodeMap} {w : Word} {i : Instr} (h : decodeWith m w = .ok i) :
    m.number i.opcode = w.extractLsb' 26 6 ∧ i.pred = w.extractLsb' 22 4 ∧ i.rt = w.extractLsb' 18 4 ∧
      i.rs1 = w.extractLsb' 14 4 ∧ i.rs2 = w.extractLsb' 10 4 ∧ i.off = (w.extractLsb' 0 10).toInt := by
  rw [decodeWith_eq] at h
  cases ho : opcodeOf m (w.extractLsb' 26 6) with
  | none => rw [ho] at h; cases h
  | some op =>
    rw [ho] at h
    cases h
    exact ⟨by simpa using opcodeOf_eq_some ho, by simp, by simp, by simp, by simp, by simp⟩

/-- Every decoded instruction is representable. -/
theorem decodeWith_wellFormed {m : OpcodeMap} {w : Word} {i : Instr} (h : decodeWith m w = .ok i) :
    i.wellFormed = true := by
  obtain ⟨_, _, _, _, _, ho⟩ := decodeWith_eq_ok h
  have h1 := BitVec.le_toInt (w.extractLsb' 0 10)
  have h2 := BitVec.toInt_lt (x := w.extractLsb' 0 10)
  simp only [Instr.wellFormed, offsetInRange, ho, Bool.and_eq_true, decide_eq_true_eq]
  have e : (2 : Int) ^ (10 - 1) = 512 := by norm_num
  rw [e] at h1 h2
  omega

/-- The Word of six fields is the one Word whose slices they are. -/
theorem eq_encodeFields_iff (m : OpcodeMap) (op : Opcode) (p : Flags) (t a b : RegIdx) (o : Int) (w : Word) :
    w = encodeFields m op p t a b o ↔
      w.extractLsb' 26 6 = m.number op ∧ w.extractLsb' 22 4 = p ∧ w.extractLsb' 18 4 = t ∧ w.extractLsb' 14 4 = a ∧
        w.extractLsb' 10 4 = b ∧ w.extractLsb' 0 10 = BitVec.ofInt 10 o := by
  unfold encodeFields
  generalize m.number op = n
  generalize BitVec.ofInt 10 o = k
  constructor
  · rintro rfl
    refine ⟨?_, ?_, ?_, ?_, ?_, ?_⟩ <;>
      (apply BitVec.eq_of_getLsbD_eq; intro i hi; simp; interval_cases i <;> simp)
  · rintro ⟨rfl, rfl, rfl, rfl, rfl, rfl⟩
    apply BitVec.eq_of_getLsbD_eq; intro i hi; interval_cases i <;> simp

/-- What `encode` of an instruction can answer. -/
theorem encodeWith_cases (m : OpcodeMap) (i : Instr) :
    (i.wellFormed = true ∧ encodeWith m i = .ok (encodeFields m i.opcode i.pred i.rt i.rs1 i.rs2 i.off)) ∨
      (i.wellFormed = false ∧ encodeWith m i = .error .offsetOutOfRange) := by
  unfold encodeWith Instr.wellFormed
  cases offsetInRange i.off <;> simp

end Sys2Proof
end

