-- ==== Sys2Proof/Laws/State.lean ====
section
/-! SUPPORT. One lemma per field per update of State, so that no later proof unfolds a record update. -/

namespace Sys2Proof.Machine

/-! ## setReg -/

@[simp] theorem setReg_cond (s : State) (i : RegIdx) (v : Word) : (s.setReg i v).cond = s.cond := by
  unfold State.setReg; split <;> rfl

@[simp] theorem setReg_control (s : State) (i : RegIdx) (v : Word) : (s.setReg i v).control = s.control := by
  unfold State.setReg; split <;> rfl

@[simp] theorem setReg_fault (s : State) (i : RegIdx) (v : Word) : (s.setReg i v).fault = s.fault := by
  unfold State.setReg; split <;> rfl

@[simp] theorem setReg_mem (s : State) (i : RegIdx) (v : Word) : (s.setReg i v).mem = s.mem := by
  unfold State.setReg; split <;> rfl

@[simp] theorem setReg_params (s : State) (i : RegIdx) (v : Word) : (s.setReg i v).params = s.params := by
  unfold State.setReg; split <;> rfl

/-! ## incReg -/

@[simp] theorem incReg_cond (s : State) (i : RegIdx) : (s.incReg i).cond = s.cond := setReg_cond ..
@[simp] theorem incReg_control (s : State) (i : RegIdx) : (s.incReg i).control = s.control := setReg_control ..
@[simp] theorem incReg_fault (s : State) (i : RegIdx) : (s.incReg i).fault = s.fault := setReg_fault ..
@[simp] theorem incReg_mem (s : State) (i : RegIdx) : (s.incReg i).mem = s.mem := setReg_mem ..
@[simp] theorem incReg_params (s : State) (i : RegIdx) : (s.incReg i).params = s.params := setReg_params ..

/-! ## setCond -/

@[simp] theorem setCond_regs (s : State) (f : Flags) : (s.setCond f).regs = s.regs := rfl
@[simp] theorem setCond_cond (s : State) (f : Flags) : (s.setCond f).cond = f := rfl
@[simp] theorem setCond_control (s : State) (f : Flags) : (s.setCond f).control = s.control := rfl
@[simp] theorem setCond_fault (s : State) (f : Flags) : (s.setCond f).fault = s.fault := rfl
@[simp] theorem setCond_mem (s : State) (f : Flags) : (s.setCond f).mem = s.mem := rfl
@[simp] theorem setCond_params (s : State) (f : Flags) : (s.setCond f).params = s.params := rfl
@[simp] theorem getReg_setCond (s : State) (f : Flags) (i : RegIdx) : (s.setCond f).getReg i = s.getReg i := rfl

/-! ## setControl -/

@[simp] theorem setControl_regs (s : State) (c : Control) : (s.setControl c).regs = s.regs := rfl
@[simp] theorem setControl_cond (s : State) (c : Control) : (s.setControl c).cond = s.cond := rfl
@[simp] theorem setControl_control (s : State) (c : Control) : (s.setControl c).control = c := rfl
@[simp] theorem setControl_fault (s : State) (c : Control) : (s.setControl c).fault = s.fault := rfl
@[simp] theorem setControl_mem (s : State) (c : Control) : (s.setControl c).mem = s.mem := rfl
@[simp] theorem setControl_params (s : State) (c : Control) : (s.setControl c).params = s.params := rfl
@[simp] theorem getReg_setControl (s : State) (c : Control) (i : RegIdx) :
    (s.setControl c).getReg i = s.getReg i := rfl

/-! ## setMem -/

@[simp] theorem setMem_regs (s : State) (m : Memory) : (s.setMem m).regs = s.regs := rfl
@[simp] theorem setMem_cond (s : State) (m : Memory) : (s.setMem m).cond = s.cond := rfl
@[simp] theorem setMem_control (s : State) (m : Memory) : (s.setMem m).control = s.control := rfl
@[simp] theorem setMem_fault (s : State) (m : Memory) : (s.setMem m).fault = s.fault := rfl
@[simp] theorem setMem_mem (s : State) (m : Memory) : (s.setMem m).mem = m := rfl
@[simp] theorem setMem_params (s : State) (m : Memory) : (s.setMem m).params = s.params := rfl
@[simp] theorem getReg_setMem (s : State) (m : Memory) (i : RegIdx) : (s.setMem m).getReg i = s.getReg i := rfl

/-! ## raise -/

@[simp] theorem raise_regs (s : State) (c : FaultCause) (a w : Word) : (s.raise c a w).regs = s.regs := rfl
@[simp] theorem raise_cond (s : State) (c : FaultCause) (a w : Word) : (s.raise c a w).cond = s.cond := rfl
@[simp] theorem raise_control (s : State) (c : FaultCause) (a w : Word) : (s.raise c a w).control = .faulted := rfl
@[simp] theorem raise_fault (s : State) (c : FaultCause) (a w : Word) :
    (s.raise c a w).fault = { cause := c, address := a, word := w } := rfl
@[simp] theorem raise_mem (s : State) (c : FaultCause) (a w : Word) : (s.raise c a w).mem = s.mem := rfl
@[simp] theorem raise_params (s : State) (c : FaultCause) (a w : Word) : (s.raise c a w).params = s.params := rfl
@[simp] theorem getReg_raise (s : State) (c : FaultCause) (a w : Word) (i : RegIdx) :
    (s.raise c a w).getReg i = s.getReg i := rfl

end Sys2Proof.Machine
end

