-- ==== Sys2Proof/Laws/Ops.lean ====
section
/-! SUPPORT. What the register and memory operations do, once each. -/

namespace Sys2Proof.Machine

/-! ## Registers -/

@[simp] theorem getReg_zero (s : State) : s.getReg 0#4 = 0#32 := by simp [State.getReg]

@[simp] theorem setReg_zero (s : State) (v : Word) : s.setReg 0#4 v = s := by simp [State.setReg]

/-- Different registers other than 0 have different places. -/
theorem regPlace_ne {i j : RegIdx} (hi : i ≠ 0#4) (hj : j ≠ 0#4) (hij : i ≠ j) : i.toNat - 1 ≠ j.toNat - 1 := by
  have h0 : ∀ k : RegIdx, k ≠ 0#4 → 0 < k.toNat := fun k hk =>
    Nat.pos_of_ne_zero fun h => hk (BitVec.eq_of_toNat_eq (by simpa using h))
  have := h0 i hi
  have := h0 j hj
  intro h
  exact hij (BitVec.eq_of_toNat_eq (by omega))

/-- A register read after a register write. -/
theorem getReg_setReg (s : State) (i j : RegIdx) (v : Word) :
    (s.setReg i v).getReg j = if j = 0#4 then 0#32 else if j = i then v else s.getReg j := by
  by_cases hj : j = 0#4
  · simp [State.getReg, hj]
  by_cases hi : i = 0#4
  · subst hi; simp [hj]
  by_cases hij : j = i
  · subst hij; simp [State.getReg, State.setReg, hj]
  · have := regPlace_ne hi hj (Ne.symm hij)
    simp [State.getReg, State.setReg, hj, hi, hij, this]

/-- A register read after an increment. -/
theorem getReg_incReg (s : State) (i j : RegIdx) :
    (s.incReg i).getReg j = if j = 0#4 then 0#32 else if j = i then s.getReg i + 1#32 else s.getReg j :=
  getReg_setReg ..

/-- Two states with the same registers read the same. -/
theorem getReg_congr {s t : State} (h : s.regs = t.regs) (i : RegIdx) : s.getReg i = t.getReg i := by
  simp [State.getReg, h]

/-- The registers are determined by what they read. -/
theorem regs_ext {s t : State} (h : ∀ i : RegIdx, s.getReg i = t.getReg i) : s.regs = t.regs := by
  refine Vector.ext fun k hk => ?_
  have hn : (BitVec.ofNat 4 (k + 1)).toNat = k + 1 := by simp [BitVec.toNat_ofNat]; omega
  have h0 : BitVec.ofNat 4 (k + 1) ≠ 0#4 := fun e => by
    have := congrArg BitVec.toNat e; rw [hn] at this; simp at this
  have := h (BitVec.ofNat 4 (k + 1))
  simpa [State.getReg, h0, hn] using this

/-- Every register after reset: the start address in register 15, else 0 (10_state.md R41). -/
theorem getReg_resetWith (p : Parameters) (n : Nat) (r : RegIdx) :
    (State.resetWith p n).getReg r = if r = 15#4 then p.startAddr else 0#32 := by
  have place : ∀ r : RegIdx, r = 0#4 ∨ r.toNat - 1 < 14 ∨ r = 15#4 := by decide
  rcases place r with rfl | h | rfl
  · simp
  · by_cases h0 : r = 0#4
    · simp [h0]
    · have h15 : r ≠ 15#4 := by rintro rfl; simp at h
      simp only [State.getReg, State.resetWith, h0, h15, if_false]
      rw [Vector.getElem_set_ne _ _ (by omega), Vector.getElem_replicate]
  · simp [State.getReg, State.resetWith]

/-! ## Cells -/

theorem lookupCell_insertCell (l : List Cell) (a x : Nat) (v : Word) :
    lookupCell (insertCell l a v) x = if x = a then some v else lookupCell l x := by
  induction l with
  | nil => simp [insertCell, lookupCell]
  | cons c rest ih =>
    obtain ⟨b, w⟩ := c
    simp only [insertCell]
    split
    · simp [lookupCell]
    · split
      · next h => subst h; by_cases hx : x = a <;> simp [lookupCell, hx]
      · next h =>
        simp only [lookupCell, ih]
        by_cases hx : x = a
        · subst hx; simp [h]
        · simp [hx]

theorem mem_insertCell {l : List Cell} {a : Nat} {v : Word} {c : Cell} (h : c ∈ insertCell l a v) :
    c = (a, v) ∨ c ∈ l := by
  induction l with
  | nil => simpa [insertCell] using h
  | cons d rest ih =>
    obtain ⟨b, w⟩ := d
    simp only [insertCell] at h
    split at h
    · simpa using h
    · split at h
      · rcases List.mem_cons.1 h with rfl | h
        · exact .inl rfl
        · exact .inr (List.mem_cons_of_mem _ h)
      · rcases List.mem_cons.1 h with rfl | h
        · exact .inr List.mem_cons_self
        · exact (ih h).imp_right (List.mem_cons_of_mem _)

theorem insertCell_pairwise (l : List Cell) (a : Nat) (v : Word) (h : l.Pairwise (fun x y => x.1 < y.1)) :
    (insertCell l a v).Pairwise (fun x y => x.1 < y.1) := by
  induction l with
  | nil => simp [insertCell]
  | cons d rest ih =>
    obtain ⟨b, w⟩ := d
    obtain ⟨hb, hr⟩ := List.pairwise_cons.1 h
    simp only [insertCell]
    split
    · next hab =>
      refine List.pairwise_cons.2 ⟨fun c hc => ?_, h⟩
      rcases List.mem_cons.1 hc with rfl | hc
      · exact hab
      · exact lt_trans hab (hb c hc)
    · split
      · next hab => subst hab; exact List.pairwise_cons.2 ⟨hb, hr⟩
      · next h1 h2 =>
        refine List.pairwise_cons.2 ⟨fun c hc => ?_, ih hr⟩
        rcases mem_insertCell hc with rfl | hc
        · show b < a; omega
        · exact hb c hc

/-- A list of rising addresses that all lie above `a` lists nothing at `a`. -/
theorem lookupCell_eq_none {l : List Cell} {a : Nat} (h : ∀ c ∈ l, a < c.1) : lookupCell l a = none := by
  induction l with
  | nil => rfl
  | cons d rest ih =>
    obtain ⟨b, w⟩ := d
    have hb : a < b := h (b, w) List.mem_cons_self
    simp [lookupCell, Nat.ne_of_lt hb, ih fun c hc => h c (List.mem_cons_of_mem _ hc)]

/-- In canonical form the list of cells is determined by what it lists. -/
theorem cells_ext {l k : List Cell} (hl : l.Pairwise (fun x y => x.1 < y.1))
    (hk : k.Pairwise (fun x y => x.1 < y.1)) (h : ∀ a, lookupCell l a = lookupCell k a) : l = k := by
  induction l generalizing k with
  | nil =>
    cases k with
    | nil => rfl
    | cons d k => obtain ⟨b, w⟩ := d; simpa [lookupCell] using h b
  | cons c l ih =>
    obtain ⟨a, v⟩ := c
    cases k with
    | nil => simpa [lookupCell] using h a
    | cons d k =>
      obtain ⟨b, w⟩ := d
      obtain ⟨ha, hl'⟩ := List.pairwise_cons.1 hl
      obtain ⟨hb, hk'⟩ := List.pairwise_cons.1 hk
      have hab : a = b := by
        rcases Nat.lt_trichotomy a b with hlt | heq | hgt
        · have h1 := h a
          rw [lookupCell_eq_none (l := (b, w) :: k) (by
            intro c hc
            rcases List.mem_cons.1 hc with rfl | hc
            · exact hlt
            · exact lt_trans hlt (hb c hc))] at h1
          simp [lookupCell] at h1
        · exact heq
        · have h1 := h b
          rw [lookupCell_eq_none (l := (a, v) :: l) (by
            intro c hc
            rcases List.mem_cons.1 hc with rfl | hc
            · exact hgt
            · exact lt_trans hgt (ha c hc))] at h1
          simp [lookupCell] at h1
      subst hab
      have hv : v = w := by simpa [lookupCell] using h a
      subst hv
      refine congrArg _ (ih hl' hk' fun x => ?_)
      by_cases hx : x = a
      · subst hx; rw [lookupCell_eq_none ha, lookupCell_eq_none hb]
      · simpa [lookupCell, hx] using h x

/-! ## Memory -/

@[simp] theorem poke_capacity (m : Memory) (a : Nat) (v : Word) : (m.poke a v).capacity = m.capacity := rfl

/-- A cell read after a cell was set. -/
theorem peek_poke (m : Memory) (a x : Nat) (v : Word) :
    (m.poke a v).peek x = if x = a then v else m.peek x := by
  simp only [Memory.peek, Memory.poke, lookupCell_insertCell]
  split <;> rfl

theorem validAddr_iff (m : Memory) (a : Word) :
    m.validAddr a = true ↔ 0 ≤ sint32 a ∧ sint32 a < (m.capacity : Int) := by simp [Memory.validAddr]

/-- A valid address counts a cell within the capacity. -/
theorem toNat_lt_of_validAddr {m : Memory} {a : Word} (h : m.validAddr a = true) : a.toNat < m.capacity := by
  obtain ⟨h0, h1⟩ := (validAddr_iff m a).1 h
  simp only [sint32, BitVec.toInt_eq_toNat_cond] at h0 h1
  have := a.isLt
  split at h1 <;> omega

@[simp] theorem validAddr_poke (m : Memory) (k : Nat) (v a : Word) :
    (m.poke k v).validAddr a = m.validAddr a := rfl

/-- Every memory write keeps the canonical form. -/
theorem wf_poke {m : Memory} (h : m.wf) {a : Nat} (ha : a < m.capacity) (v : Word) : (m.poke a v).wf := by
  obtain ⟨h1, h2, h3, h4⟩ := h
  refine ⟨h1, h2, insertCell_pairwise _ _ _ h3, fun c hc => ?_⟩
  rcases mem_insertCell hc with rfl | hc
  · exact ha
  · exact h4 c hc

/-- What a memory read can do. -/
theorem read_cases (m : Memory) (a : Word) :
    (m.validAddr a = true ∧ m.read a = some (m.peek a.toNat)) ∨ (m.validAddr a = false ∧ m.read a = none) := by
  cases h : m.validAddr a <;> simp [Memory.read, h]

/-- What a memory write can do. -/
theorem write_cases (m : Memory) (a v : Word) :
    (m.validAddr a = true ∧ m.write a v = some (m.poke a.toNat v)) ∨
      (m.validAddr a = false ∧ m.write a v = none) := by
  cases h : m.validAddr a <;> simp [Memory.write, h]

/-- A memory write that answers keeps the canonical form and the capacity. -/
theorem wf_write {m m' : Memory} {a v : Word} (h : m.wf) (hw : m.write a v = some m') :
    m'.wf ∧ m'.capacity = m.capacity := by
  rcases write_cases m a v with ⟨hv, e⟩ | ⟨_, e⟩
  · rw [e] at hw; cases hw; exact ⟨wf_poke h (toNat_lt_of_validAddr hv) v, rfl⟩
  · rw [e] at hw; cases hw

end Sys2Proof.Machine
end

