-- ==== Sys2Proof/Laws/Execute.lean ====
section
/-! SUPPORT. What the shared phases of an instruction do, once each, and every meaning as one gated state. -/

namespace Sys2Proof.Machine

/-! ## The ALU -/

/-- The ALU on a mnemonic's own number. -/
theorem aluExecWith_number (m : OpcodeMap) (op : Opcode) (a b : Int) :
    aluExecWith m (m.number op) a b = aluOp op a b := by
  unfold aluExecWith
  rw [opcodeOf_number]

theorem aluCall_eq (op : Opcode) (a b : RegIdx) (off : Int) (s : State) :
    aluCall op a b off s = aluOp op (operand1 a s) (operand2 b off s) := aluExecWith_number ..

theorem fits32_iff (r : Int) : fits32 r = true ↔ -2 ^ 31 ≤ r ∧ r ≤ 2 ^ 31 - 1 := by
  simp only [fits32, Bool.and_eq_true, decide_eq_true_eq]

/-- What packing an exact result can give. -/
theorem packResult_cases (r : Int) :
    (-2 ^ 31 ≤ r ∧ r ≤ 2 ^ 31 - 1 ∧ packResult r = { result := bits32 r, flag := signFlag r }) ∨
      (¬ (-2 ^ 31 ≤ r ∧ r ≤ 2 ^ 31 - 1) ∧ packResult r = aluFailure) := by
  by_cases h : fits32 r = true
  · exact .inl ⟨((fits32_iff r).1 h).1, ((fits32_iff r).1 h).2, by simp [packResult, h]⟩
  · exact .inr ⟨fun h' => h ((fits32_iff r).2 h'), by simp [packResult, h]⟩

/-- Packing a result in range loses nothing. -/
theorem toInt_bits32 {r : Int} (h1 : -2 ^ 31 ≤ r) (h2 : r ≤ 2 ^ 31 - 1) : (bits32 r).toInt = r := by
  rw [BitVec.toInt_ofInt, Int.bmod_eq_of_le] <;> norm_num <;> omega

/-- The quotient of R136 is the library's quotient toward zero. -/
theorem truncDiv_eq_tdiv (a b : Int) : truncDiv a b = a.tdiv b := by
  unfold truncDiv
  rcases Int.natAbs_eq a with ha | ha <;> rcases Int.natAbs_eq b with hb | hb <;>
    generalize a.natAbs = x at * <;> generalize b.natAbs = y at * <;> subst ha <;> subst hb <;>
    rcases Nat.eq_zero_or_pos x with rfl | hx <;> rcases Nat.eq_zero_or_pos y with rfl | hy <;>
    simp [Int.tdiv_neg, Int.neg_tdiv, Int.sign_natCast_of_ne_zero, Nat.ne_of_gt, *]

/-! ## The phases -/

theorem predicatePasses_iff (p : Flags) (s : State) : predicatePasses p s = true ↔ s.cond &&& p ≠ 0#4 := by
  simp [predicatePasses]

theorem gated_pass {p : Flags} {s : State} (h : s.cond &&& p ≠ 0#4) (e : State) : gated p s e = e := by
  simp [gated, (predicatePasses_iff p s).2 h]

theorem gated_skip {p : Flags} {s : State} (h : s.cond &&& p = 0#4) (e : State) : gated p s e = skip s := by
  simp [gated, predicatePasses, h]

@[simp] theorem skip_cond (s : State) : (skip s).cond = s.cond := incReg_cond ..
@[simp] theorem skip_control (s : State) : (skip s).control = s.control := incReg_control ..
@[simp] theorem skip_fault (s : State) : (skip s).fault = s.fault := incReg_fault ..
@[simp] theorem skip_mem (s : State) : (skip s).mem = s.mem := incReg_mem ..

@[simp] theorem skip_params (s : State) : (skip s).params = s.params := incReg_params ..

theorem getReg_skip (s : State) (r : RegIdx) :
    (skip s).getReg r = if r = 15#4 then s.getReg 15#4 + 1#32 else s.getReg r := by
  rw [skip, getReg_incReg]
  by_cases h : r = 0#4
  · subst h; simp
  · simp [h]

@[simp] theorem genericWrite_cond (t : RegIdx) (o : AluOut) (s : State) : (genericWrite t o s).cond = o.flag := by
  simp [genericWrite]
@[simp] theorem genericWrite_control (t : RegIdx) (o : AluOut) (s : State) :
    (genericWrite t o s).control = s.control := by simp [genericWrite]
@[simp] theorem genericWrite_fault (t : RegIdx) (o : AluOut) (s : State) :
    (genericWrite t o s).fault = s.fault := by simp [genericWrite]
@[simp] theorem genericWrite_mem (t : RegIdx) (o : AluOut) (s : State) :
    (genericWrite t o s).mem = s.mem := by simp [genericWrite]

@[simp] theorem genericWrite_params (t : RegIdx) (o : AluOut) (s : State) :
    (genericWrite t o s).params = s.params := by simp [genericWrite]

/-- Every register after phase 5. -/
theorem getReg_genericWrite (t : RegIdx) (o : AluOut) (s : State) (r : RegIdx) :
    (genericWrite t o s).getReg r =
      if r = 0#4 then 0#32
      else if r = 15#4 then (if t = 15#4 then o.result else s.getReg 15#4) + 1#32
      else if r = t then o.result else s.getReg r := by
  rw [genericWrite, getReg_incReg]
  by_cases h0 : r = 0#4
  · simp [h0]
  by_cases h15 : r = 15#4
  · simp [h15, getReg_setReg, eq_comm]
  · simp [h0, h15, getReg_setReg]

/-- What phase 6 of LOAD can do. -/
theorem loadEffect_cases (t : RegIdx) (a : Word) (s : State) :
    (s.mem.validAddr a = true ∧ loadEffect t a s = s.setReg t (s.mem.peek a.toNat)) ∨
      (s.mem.validAddr a = false ∧ loadEffect t a s = s.raise .loadOutOfRange a 0#32) := by
  rcases read_cases s.mem a with ⟨h, e⟩ | ⟨h, e⟩ <;> simp [loadEffect, h, e]

/-- What phase 6 of STORE can do. -/
theorem storeEffect_cases (t : RegIdx) (a : Word) (s : State) :
    (s.mem.validAddr a = true ∧ storeEffect t a s = s.setMem (s.mem.poke a.toNat (s.getReg t))) ∨
      (s.mem.validAddr a = false ∧ storeEffect t a s = s.raise .storeOutOfRange a 0#32) := by
  rcases write_cases s.mem a (s.getReg t) with ⟨h, e⟩ | ⟨h, e⟩ <;> simp [storeEffect, h, e]

/-! ## Every meaning at once -/

/-- Phases 5 and 6 of an instruction. -/
def executed (i : Instr) (s : State) : State :=
  match i with
  | .halt _ t a b o => haltEffect (genericWrite t (aluCall .halt a b o s) s)
  | .load _ t a b o => loadEffect t (aluCall .load a b o s).result (genericWrite t (aluCall .load a b o s) s)
  | .store _ t a b o => storeEffect t (aluCall .store a b o s).result (genericWrite t (aluCall .store a b o s) s)
  | .add _ t a b o => genericWrite t (aluCall .add a b o s) s
  | .sub _ t a b o => genericWrite t (aluCall .sub a b o s) s
  | .mul _ t a b o => genericWrite t (aluCall .mul a b o s) s
  | .div _ t a b o => genericWrite t (aluCall .div a b o s) s

/-- What an executed instruction can do to the control state and the fault record: HALT halts; LOAD and STORE at an
address that is not valid raise their fault; nothing else touches either. -/
theorem executed_control_cases (i : Instr) (s : State) :
    (i.opcode = .halt ∧ (executed i s).control = .halted ∧ (executed i s).fault = s.fault) ∨
    ((i.opcode = .load ∨ i.opcode = .store) ∧
      s.mem.validAddr (aluCall i.opcode i.rs1 i.rs2 i.off s).result = false ∧
      (executed i s).control = .faulted ∧
      (executed i s).fault =
        { cause := if i.opcode = .load then .loadOutOfRange else .storeOutOfRange,
          address := (aluCall i.opcode i.rs1 i.rs2 i.off s).result, word := 0#32 }) ∨
    (i.opcode ≠ .halt ∧
      ((i.opcode = .load ∨ i.opcode = .store) →
        s.mem.validAddr (aluCall i.opcode i.rs1 i.rs2 i.off s).result = true) ∧
      (executed i s).control = s.control ∧ (executed i s).fault = s.fault) := by
  cases i with
  | halt p t a b o => exact .inl ⟨rfl, rfl, by simp [executed, haltEffect]⟩
  | load p t a b o =>
    simp only [executed, Instr.opcode, Instr.rs1, Instr.rs2, Instr.off]
    rcases loadEffect_cases t (aluCall .load a b o s).result (genericWrite t (aluCall .load a b o s) s) with
      ⟨h, e⟩ | ⟨h, e⟩ <;> rw [e] <;> rw [genericWrite_mem] at h <;> simp [h]
  | store p t a b o =>
    simp only [executed, Instr.opcode, Instr.rs1, Instr.rs2, Instr.off]
    rcases storeEffect_cases t (aluCall .store a b o s).result (genericWrite t (aluCall .store a b o s) s) with
      ⟨h, e⟩ | ⟨h, e⟩ <;> rw [e] <;> rw [genericWrite_mem] at h <;> simp [h]
  | _ => exact .inr (.inr ⟨by simp [Instr.opcode], by simp [Instr.opcode], by simp [executed], by simp [executed]⟩)

/-- What an executed instruction can do to memory: nothing, or one cell set at the valid address of a STORE. -/
theorem executed_mem_cases (i : Instr) (s : State) :
    (executed i s).mem = s.mem ∨
    ∃ p t a b off, i = .store p t a b off ∧ s.mem.validAddr (aluCall .store a b off s).result = true ∧
      ∃ v, (executed i s).mem = s.mem.poke (aluCall .store a b off s).result.toNat v := by
  cases i with
  | halt => exact .inl (by simp [executed, haltEffect])
  | load p t a b o =>
    refine .inl ?_
    simp only [executed]
    rcases loadEffect_cases t (aluCall .load a b o s).result (genericWrite t (aluCall .load a b o s) s) with
      ⟨_, e⟩ | ⟨_, e⟩ <;> rw [e] <;> simp
  | store p t a b o =>
    simp only [executed]
    rcases storeEffect_cases t (aluCall .store a b o s).result (genericWrite t (aluCall .store a b o s) s) with
      ⟨h, e⟩ | ⟨_, e⟩ <;> rw [e]
    · rw [genericWrite_mem] at h
      exact .inr ⟨p, t, a, b, o, rfl, h, _, by rw [setMem_mem, genericWrite_mem]⟩
    · simp
  | _ => exact .inl (by simp [executed])

/-- No instruction changes the parameters. -/
@[simp] theorem executed_params (i : Instr) (s : State) : (executed i s).params = s.params := by
  cases i with
  | load p t a b o =>
    rcases loadEffect_cases t (aluCall .load a b o s).result (genericWrite t (aluCall .load a b o s) s) with
      ⟨_, e⟩ | ⟨_, e⟩ <;> simp [executed, e]
  | store p t a b o =>
    rcases storeEffect_cases t (aluCall .store a b o s).result (genericWrite t (aluCall .store a b o s) s) with
      ⟨_, e⟩ | ⟨_, e⟩ <;> simp [executed, e]
  | _ => simp [executed, haltEffect]

@[simp] theorem gated_params (p : Flags) (i : Instr) (s : State) : (gated p s (executed i s)).params = s.params := by
  unfold gated; split <;> simp

/-- An instruction always answers a next state: the executed one or the skipped one. -/
theorem exec_eq (i : Instr) (s : State) : exec i s = .next (gated i.pred s (executed i s)) := by
  cases i <;> rfl

theorem exec_pass {i : Instr} {s : State} (h : s.cond &&& i.pred ≠ 0#4) : exec i s = .next (executed i s) := by
  rw [exec_eq, gated_pass h]

theorem exec_skip {i : Instr} {s : State} (h : s.cond &&& i.pred = 0#4) : exec i s = .next (skip s) := by
  rw [exec_eq, gated_skip h]

end Sys2Proof.Machine
end

