-- ==== Sys2Proof/Laws/PerInstr.lean ====
section
/-! SUPPORT. Per-instruction facts about the syntax: the unchecked encoder agrees with the encoder of instructions on
every instruction, in success and in failure (41_codec.md R114, R115). -/

namespace Sys2Proof

/-- A 4-bit port value is always in the range of its field. -/
theorem fourBitInRange_toNat (b : BitVec 4) : fourBitInRange (b.toNat : Int) = true := by
  have := b.isLt
  simp only [fourBitInRange, Bool.and_eq_true, decide_eq_true_eq]
  omega

/-- A bit pattern is recovered from its unsigned reading. -/
theorem ofInt_toNat (b : BitVec 4) : BitVec.ofInt 4 (b.toNat : Int) = b := by
  rw [BitVec.ofInt_natCast, BitVec.ofNat_toNat, BitVec.setWidth_eq]

/-- The unchecked encoder on the record of an instruction. -/
theorem encodeRecordWith_toRecord (m : OpcodeMap) (i : Instr) : encodeRecordWith m i.toRecord = encodeWith m i := by
  simp only [encodeRecordWith, Instr.toRecord, fourBitInRange_toNat, ofInt_toNat, encodeWith]
  cases offsetInRange i.off <;> rfl

namespace Laws.RecordEncodesAlike

/-- The unchecked encoder answers for an instruction's record what the encoder answers for the instruction. -/
def Statement (i : Instr) : Prop := encodeRecord i.toRecord = encode i

theorem halt (p : Flags) (t a b : RegIdx) (o : Int) : Statement (.halt p t a b o) := encodeRecordWith_toRecord ..
theorem load (p : Flags) (t a b : RegIdx) (o : Int) : Statement (.load p t a b o) := encodeRecordWith_toRecord ..
theorem store (p : Flags) (t a b : RegIdx) (o : Int) : Statement (.store p t a b o) := encodeRecordWith_toRecord ..
theorem add (p : Flags) (t a b : RegIdx) (o : Int) : Statement (.add p t a b o) := encodeRecordWith_toRecord ..
theorem sub (p : Flags) (t a b : RegIdx) (o : Int) : Statement (.sub p t a b o) := encodeRecordWith_toRecord ..
theorem mul (p : Flags) (t a b : RegIdx) (o : Int) : Statement (.mul p t a b o) := encodeRecordWith_toRecord ..
theorem div (p : Flags) (t a b : RegIdx) (o : Int) : Statement (.div p t a b o) := encodeRecordWith_toRecord ..

end Laws.RecordEncodesAlike

end Sys2Proof
end

