-- ==== Sys2Proof/Laws/Step.lean ====
section
/-! SUPPORT. What one step can do, once, and the packaged induction over steps. -/

namespace Sys2Proof.Machine

/-- What phases 1 and 2 can give. -/
theorem frontEnd_cases (s : State) :
    (s.mem.validAddr s.pc = false ∧ frontEnd s = .fetchOutOfRange s.pc) ∨
    (s.mem.validAddr s.pc = true ∧ (∀ i, decodeWith s.params.opcodes (s.mem.peek s.pc.toNat) ≠ .ok i) ∧
      frontEnd s = .decodeError s.pc (s.mem.peek s.pc.toNat)) ∨
    (s.mem.validAddr s.pc = true ∧ ∃ i, decodeWith s.params.opcodes (s.mem.peek s.pc.toNat) = .ok i ∧
      frontEnd s = .decoded s.pc (s.mem.peek s.pc.toNat) i) := by
  rcases read_cases s.mem s.pc with ⟨h, e⟩ | ⟨h, e⟩
  · cases hd : decodeWith s.params.opcodes (s.mem.peek s.pc.toNat) with
    | error x => exact .inr (.inl ⟨h, by simp, by simp only [frontEnd, e, hd]⟩)
    | ok i => exact .inr (.inr ⟨h, i, rfl, by simp only [frontEnd, e, hd]⟩)
  · exact .inl ⟨h, by simp only [frontEnd, e]⟩

/-- What a step that answers a next state did: the machine was Running, and it raised one of the two step faults or ran
the instruction that the Word at the program counter decodes to. -/
theorem step_cases {s u : State} (h : step s = .next u) :
    s.control = .running ∧
    ((s.mem.validAddr s.pc = false ∧ u = s.raise .fetchOutOfRange s.pc 0#32) ∨
     (s.mem.validAddr s.pc = true ∧ (∀ i, decodeWith s.params.opcodes (s.mem.peek s.pc.toNat) ≠ .ok i) ∧
       u = s.raise .decodeError s.pc (s.mem.peek s.pc.toNat)) ∨
     (s.mem.validAddr s.pc = true ∧ ∃ i, decodeWith s.params.opcodes (s.mem.peek s.pc.toNat) = .ok i ∧
       u = gated i.pred s (executed i s))) := by
  unfold step at h
  cases hc : s.control with
  | halted => rw [hc] at h; cases h
  | faulted => rw [hc] at h; cases h
  | running =>
    rw [hc] at h
    refine ⟨rfl, ?_⟩
    rcases frontEnd_cases s with ⟨hv, e⟩ | ⟨hv, hd, e⟩ | ⟨hv, i, hd, e⟩
    · rw [e] at h; cases h; exact .inl ⟨hv, rfl⟩
    · rw [e] at h; cases h; exact .inr (.inl ⟨hv, hd, rfl⟩)
    · rw [e] at h
      simp only [exec_eq] at h
      cases h
      exact .inr (.inr ⟨hv, i, hd, rfl⟩)

/-- What a step request can do: the step, or nothing where there is none. -/
theorem stepRequest_cases (s : State) :
    (∃ u, step s = .next u ∧ stepRequest s = u) ∨ ((∀ u, step s ≠ .next u) ∧ stepRequest s = s) := by
  unfold stepRequest
  cases h : step s with
  | next u => exact .inl ⟨u, rfl, rfl⟩
  | fault f => exact .inr ⟨by simp, rfl⟩
  | refused r => exact .inr ⟨by simp, rfl⟩

/-- What a start can do. -/
theorem hostStart_cases (a : Word) (s : State) :
    (s.control = .faulted ∧ hostStart a s = s) ∨
    (s.control ≠ .faulted ∧ hostStart a s = (s.setReg 15#4 a).setControl .running) := by
  unfold hostStart
  cases h : s.control <;> simp

/-- What a load by the host can do. -/
theorem hostLoad_cases (a w : Word) (s : State) :
    ((s.control = .running ∨ s.mem.validAddr a = false) ∧ hostLoad a w s = s) ∨
    (s.control ≠ .running ∧ s.mem.validAddr a = true ∧ hostLoad a w s = s.setMem (s.mem.poke a.toNat w)) := by
  unfold hostLoad
  rcases write_cases s.mem a w with ⟨hv, e⟩ | ⟨hv, e⟩ <;> rw [e] <;> cases h : s.control <;> simp [hv]

@[simp] theorem hostReset_params (s : State) : (hostReset s).params = s.params := rfl
@[simp] theorem hostReset_mem (s : State) : (hostReset s).mem = s.mem := rfl
@[simp] theorem bootWith_params (p : Parameters) (n : Nat) (image : List (Word × Word)) :
    (bootWith p n image).params = p := rfl

/-- Every register after a reset of a machine: its own start address in register 15, else 0. -/
theorem getReg_hostReset (s : State) (r : RegIdx) :
    (hostReset s).getReg r = if r = 15#4 then s.params.startAddr else 0#32 :=
  getReg_resetWith s.params s.mem.capacity r

/-- A property that every step keeps is kept by every run. -/
theorem runSteps_induction {P : State → Prop} (hstep : ∀ s u, P s → step s = .next u → P u) (n : Nat) (s : State)
    (h : P s) : P (runSteps n s) := by
  induction n generalizing s with
  | zero => exact h
  | succ n ih =>
    refine ih _ ?_
    unfold stepRequest
    split
    · next t ht => exact hstep s t h ht
    · exact h
    · exact h

end Sys2Proof.Machine
end

