-- ==== Sys2Proof/Tests/Slice0.lean ====
section
/-! SUPPORT. Tests on small states, their expected results from spec/95_test_vectors.md (V<n>) or worked by hand from the
rule named; and for each statement with hypotheses a state and operands that meet them all (witness_…). -/

namespace Sys2Proof.Tests

open Sys2Proof Sys2Proof.Machine Sys2Proof.Claims

/-- The default parameters but for the start address. -/
def startingAt (a : Word) : Parameters := { startAddr := a, opcodes := opcodeMap }

/-- A machine of 32 Words that is Running, with given program counter, cond, registers and memory cells. -/
def machine (pc : Word) (cond : Flags) (regs : List (RegIdx × Word)) (cells : List Cell) : State :=
  let s := (State.resetWith (startingAt pc) 32).setCond cond
  { regs.foldl (fun s iv => s.setReg iv.1 iv.2) s with mem := { capacity := 32, cells := cells } }

/-- The state after one step request. -/
abbrev after (s : State) : State := stepRequest s

/-! ## Well-formedness: one ill-formed term for each check, refused (R115, V52, V53) -/

theorem test_wellFormed_offset_above : (Instr.add 15 1 0 0 512).wellFormed = false := by decide
theorem test_wellFormed_offset_below : (Instr.add 15 1 0 0 (-513)).wellFormed = false := by decide
theorem test_wellFormed_offset_edges :
    (Instr.add 15 1 0 0 511).wellFormed = true ∧ (Instr.add 15 1 0 0 (-512)).wellFormed = true := by decide

/-- A record of ADD r1,r0,r0[5] to spoil one field of. -/
def record : InstrRecord :=
  { opcode := some .add, predicate := 15, regTarget := 1, regSrc1 := 0, regSrc2 := 0, offset := 5 }

theorem test_record_good : encodeRecord record = .ok 0x0FC40005#32 := by decide
theorem test_record_opcode : encodeRecord { record with opcode := none } = .error .unknownOpcode := by decide
theorem test_record_predicate : encodeRecord { record with predicate := 16 } = .error .predicateOutOfRange := by decide
theorem test_record_target : encodeRecord { record with regTarget := 16 } = .error .registerOutOfRange := by decide
theorem test_record_source1 : encodeRecord { record with regSrc1 := -1 } = .error .registerOutOfRange := by decide
theorem test_record_source2 : encodeRecord { record with regSrc2 := 16 } = .error .registerOutOfRange := by decide
theorem test_record_offset : encodeRecord { record with offset := 512 } = .error .offsetOutOfRange := by decide
theorem test_record_wellFormed :
    record.wellFormed = true ∧ { record with opcode := none }.wellFormed = false ∧
    { record with predicate := 16 }.wellFormed = false ∧ { record with regTarget := 16 }.wellFormed = false ∧
    { record with regSrc1 := -1 }.wellFormed = false ∧ { record with regSrc2 := 16 }.wellFormed = false ∧
    { record with offset := -513 }.wellFormed = false := by decide

/-! ## Decode: a word of every opcode, its fields written out bit by bit from R71 and R76 -/

-- opcode 000000, predicate 1111, target 0101, src1 0001, src2 0010, offset 0000000111 (V161)
theorem test_decode_halt : decode 0b00000011110101000100100000000111#32 = .ok (.halt 15 5 1 2 7) := by decide
-- opcode 000001, predicate 1111, target 0010, src1 0000, src2 0000, offset 1111111111 (V48)
theorem test_decode_load : decode 0b00000111110010000000001111111111#32 = .ok (.load 15 2 0 0 (-1)) := by decide
-- opcode 000010, predicate 1111, target 0001, src1 1111, src2 0000, offset 0000000001 (V154)
theorem test_decode_store : decode 0b00001011110001111100000000000001#32 = .ok (.store 15 1 15 0 1) := by decide
-- opcode 000011, predicate 1111, target 0001, src1 0000, src2 0000, offset 0111111111 (V44)
theorem test_decode_add : decode 0b00001111110001000000000111111111#32 = .ok (.add 15 1 0 0 511) := by decide
-- opcode 000101, predicate 0010, target 1111, src1 1111, src2 0000, offset 1111111101 (V41)
theorem test_decode_sub : decode 0b00010100101111111100001111111101#32 = .ok (.sub 2 15 15 0 (-3)) := by decide
-- opcode 000110, predicate 1111, target 0100, src1 0001, src2 0010, offset 0000000000 (V131)
theorem test_decode_mul : decode 0b00011011110100000100100000000000#32 = .ok (.mul 15 4 1 2 0) := by decide
-- opcode 000111, predicate 1000, target 1110, src1 1101, src2 1100, offset 1000000000 (V43)
theorem test_decode_div : decode 0b00011110001110110111001000000000#32 = .ok (.div 8 14 13 12 (-512)) := by decide
theorem test_decode_refused : decode 0x10000000#32 = .error (.unrecognisedOpcode 4) ∧
    decode 0x20000000#32 = .error (.unrecognisedOpcode 8) ∧
    decode 0xFFFFFFFF#32 = .error (.unrecognisedOpcode 63) := by decide -- V50
theorem test_encode : encode (.div 8 14 13 12 (-512)) = .ok 0x1E3B7200#32 ∧
    encode (.add 15 3 1 2 0) = .ok 0x0FCC4800#32 ∧ encode (.add 15 1 0 0 512) = .error .offsetOutOfRange := by decide
theorem test_decodeTableWord : decodeTableWord 32 0x07C803FF = some (.load 15 2 0 0 (-1)) ∧
    decodeTableWord 32 0x10000000 = none := by decide

/-! ## BitField (V4 to V7, V26, V29, V31, V37, V39) -/

theorem test_extract : (BitField.make? 0 3).map (·.extract 0x555) = some 5 ∧
    (BitField.make? 5 9).map (·.extract 0xAB6B) = some 27 ∧
    (BitField.make? 0 31).map (·.extract 0xDEADBEEF) = some 0xDEADBEEF := by decide
theorem test_extractSigned : (BitField.make? 0 9).map (·.extractSigned 0x3FF) = some (-1) ∧
    (BitField.make? 7 7).map (·.extractSigned 0x80) = some (-1) ∧
    (BitField.make? 0 31).map (·.extractSigned 0xDEADBEEF) = some (-559038737) := by decide
theorem test_insert : (BitField.make? 3 5).map (·.insert (-1) 0) = some 0x38#32 ∧
    (BitField.make? 3 5).map (·.insert 0 0xFFFFFFFF) = some 0xFFFFFFC7#32 ∧
    (BitField.make? 3 5).map (·.insert 0b11010 0) = some 0x10#32 := by decide
theorem test_signExtend : signExtend? 7 4 = some 7 ∧ signExtend? 7 3 = some (-1) ∧ signExtend? 2 2 = some (-2) := by
  decide
theorem test_bitField_refused : BitField.make? 5 3 = none ∧ BitField.make? 0 32 = none ∧ signExtend? 8 3 = none ∧
    signExtend? 1 1 = none := by decide

/-! ## The ALU (V63, V73, V74, V81, V90, V94, V96, V101, V104, V105) -/

theorem test_alu_fits : aluExec 5 (-1) (-2147483648) = ⟨0x7FFFFFFF, flagP⟩ ∧
    aluExec 5 (-2147483648) (-2147483648) = ⟨0, flagZ⟩ ∧ aluExec 6 (-65536) 32768 = ⟨0x80000000, flagM⟩ ∧
    aluExec 7 (-1) 2 = ⟨0, flagZ⟩ ∧ aluExec 7 (-2147483648) 2147483648 = ⟨0xFFFFFFFF, flagM⟩ ∧
    aluExec 0 5 9 = ⟨0, flagZ⟩ := by decide
theorem test_alu_fails : aluExec 3 2147483647 1 = ⟨0, flagV⟩ ∧ aluExec 7 (-2147483648) (-1) = ⟨0, flagV⟩ ∧
    aluExec 7 0 0 = ⟨0, flagV⟩ ∧ aluExec 1 2147483647 1 = ⟨0, flagV⟩ ∧ aluExec 4 1 1 = ⟨0, flagV⟩ := by decide

/-! ## One step of each instruction -/

/-- ADD r15,r0,r0[7] at 2: one past the result (V126). -/
theorem test_add_jump : (after (machine 2 15 [] [(2, 0x0FFC0007)])).pc = 8 := by decide

/-- ADD r1,r2,r2[-1] with r2 = -2^31 does not fit (V122). -/
theorem test_add_overflow : let u := after (machine 0 15 [(2, 0x80000000), (1, 9)] [(0, 0x0FC48BFF)])
    u.getReg 1 = 0 ∧ u.cond = flagV ∧ u.pc = 1 ∧ u.control = .running := by decide

/-- SUB r1,r2,r2[1] with r2 = 2^31 - 1: the second operand is exact (V129). -/
theorem test_sub_exact : let u := after (machine 0 15 [(2, 0x7FFFFFFF)] [(0, 0x17C48801)])
    u.getReg 1 = 0xFFFFFFFF ∧ u.cond = flagM := by decide

/-- SUB r0,r1,r2[0] is a compare (V130). -/
theorem test_sub_compare : let u := after (machine 0 15 [(1, 4), (2, 9)] [(0, 0x17C04800)])
    u.getReg 0 = 0 ∧ u.getReg 1 = 4 ∧ u.getReg 2 = 9 ∧ u.cond = flagM ∧ u.pc = 1 := by decide

/-- MUL r4,r1,r2[0]: -2^31 fits (V133). -/
theorem test_mul_lowest : let u := after (machine 0 15 [(1, 0xFFFF0000), (2, 0x8000)] [(0, 0x1BD04800)])
    u.getReg 4 = 0x80000000 ∧ u.cond = flagM := by decide

/-- MUL r4,r1,r2[0]: 2^31 does not fit (V131). -/
theorem test_mul_overflow : let u := after (machine 0 15 [(1, 0x10000), (2, 0x8000), (4, 77)] [(0, 0x1BD04800)])
    u.getReg 4 = 0 ∧ u.cond = flagV := by decide

/-- DIV r4,r1,r2[0]: -7 by 2 rounds toward zero (V134). -/
theorem test_div_truncates : let u := after (machine 0 15 [(1, 0xFFFFFFF9), (2, 2)] [(0, 0x1FD04800)])
    u.getReg 4 = 0xFFFFFFFD ∧ u.cond = flagM := by decide

/-- DIV r15,r1,r0[0] at 2: 0 is written to register 15, then incremented (V138). -/
theorem test_div_by_zero : let u := after (machine 2 15 [(1, 7)] [(2, 0x1FFC4000)])
    u.pc = 1 ∧ u.cond = flagV ∧ u.control = .running := by decide

/-- LOAD r15,r0,r0[11]: exactly the loaded Word, the flag of the address (V144). -/
theorem test_load_jump : let u := after (machine 0 15 [] [(0, 0x07FC000B), (11, 20)])
    u.pc = 20 ∧ u.cond = flagP := by decide

/-- LOAD r2,r0,r0[32] in 32 Words: the fault after phase 5 (V147). -/
theorem test_load_fault : let u := after (machine 0 15 [] [(0, 0x07C80020)])
    u.control = .faulted ∧ hostStatus u = (.faulted, 3, 32, 0) ∧ u.getReg 2 = 32 ∧ u.cond = flagP ∧ u.pc = 1 := by
  decide

/-- STORE r15,r0,r0[10] at 3: the Word stored is the advanced program counter (V152). -/
theorem test_store_pc : let u := after (machine 3 15 [] [(3, 0x0BFC000A)])
    u.pc = 11 ∧ u.mem.read 10 = some 11 ∧ u.cond = flagP := by decide

/-- STORE r1,r0,r0[32] in 32 Words: the fault, memory unchanged (V156). -/
theorem test_store_fault : let u := after (machine 0 15 [(1, 7)] [(0, 0x0BC40020)])
    hostStatus u = (.faulted, 4, 32, 0) ∧ u.getReg 1 = 32 ∧ u.mem.cells = [(0, 0x0BC40020)] := by decide

/-- HALT r5,r1,r2[7] clears its target (V161). -/
theorem test_halt_clears : let u := after (machine 0 15 [(1, 1), (2, 2), (5, 99)] [(0, 0x03D44807)])
    u.control = .halted ∧ u.getReg 5 = 0 ∧ u.cond = flagZ ∧ u.pc = 1 := by decide

/-- HALT/Z with cond = P is skipped (V115). -/
theorem test_halt_skipped : let u := after (machine 3 flagP [] [(3, 0x00800000)])
    u.control = .running ∧ u.cond = flagP ∧ u.pc = 4 := by decide

/-! ## Step faults, the observer and the host (V163, V165, V167 to V169, section 2.8) -/

theorem test_fetch_fault : hostStatus (after (machine 32 15 [] [])) = (.faulted, 2, 32, 0) ∧
    (after (machine 32 15 [] [])).pc = 32 ∧ observed (machine 32 15 [] []) = none := by decide
theorem test_decode_fault : hostStatus (after (machine 1 15 [] [(1, 0x10000000)])) = (.faulted, 1, 1, 0x10000000) ∧
    (after (machine 1 15 [] [(1, 0x10000000)])).pc = 1 := by decide
theorem test_observer_skipped : observed (machine 3 flagZ [] [(3, 0x0D3FC3FD)]) =
    some ⟨3, 0x0D3FC3FD, .add 4 15 15 0 (-3)⟩ := by decide
theorem test_start_halted : let u := hostStart 0 ((machine 9 flagZ [(1, 5)] []).setControl .halted)
    u.control = .running ∧ u.pc = 0 ∧ u.getReg 1 = 5 ∧ u.cond = flagZ := by decide
theorem test_start_faulted : hostStart 0 ((machine 9 flagZ [] []).setControl .faulted) =
    (machine 9 flagZ [] []).setControl .faulted := by decide
theorem test_reset_values : (hostReset (machine 9 flagZ [(1, 5)] [(3, 4)])).mem.cells = [(3, 4)] ∧
    (hostReset (machine 9 flagZ [(1, 5)] [])).cond = 15 ∧ (hostReset (machine 9 flagZ [(1, 5)] [])).getReg 1 = 0 := by
  decide
theorem test_withFetchWord : (after (State.reset.withFetchWord 32 0x0FC40005)).getReg 1 = 5 := by decide

/-- An image loaded from outside, then reset: the first step runs its first Word (R265, P1). -/
theorem test_boot : (after (bootWith (startingAt 0) 4 [(0, 0x0FC40005), (3, 0x03C00000)])).getReg 1 = 5 ∧
    (bootWith (startingAt 0) 4 [(3, 0x03C00000), (0, 0x0FC40005)]).mem.cells = [(0, 0x0FC40005), (3, 0x03C00000)] := by decide

/-- Parameters of another machine: start address 3, ADD and HALT with each other's default numbers, DIV number 63. -/
def otherParameters : Parameters :=
  { startAddr := 3
    opcodes := { opcodeMap with halt := 3, add := 0, div := 63, distinct := by decide } }

/-- A machine booted with other parameters runs its Words under its own opcode map, where 0x03C40005 is ADD r1,r0,r0[5]
and 0x0FC00000 is HALT, and a reset returns it to its own start address with register 1 cleared (R41, R76, R221). -/
def otherMachine : State := bootWith otherParameters 8 [(3, 0x03C40005), (4, 0x0FC00000)]

theorem test_other_parameters : (after otherMachine).getReg 1 = 5 ∧ (after otherMachine).pc = 4 ∧
    (after (after otherMachine)).control = .halted ∧ hostReset (after (after otherMachine)) = otherMachine := by decide

/-- The host's reads after P1's first step (R224). -/
theorem test_host_reads : let u := after (machine 0 15 [] [(0, 0x0FC40005)])
    hostStatus u = (.running, 0, 0, 0) ∧ hostReadReg 1 u = 5 ∧ hostReadReg 15 u = 1 ∧ hostReadCond u = flagP ∧
    hostReadMem 0 u = some 0x0FC40005 ∧ hostReadMem 32 u = none := by decide

/-! ## Witnesses: the hypotheses of each statement met together -/

/-- A Running machine of 32 Words with ADD r1,r0,r0[5] at its last address. -/
def running : State := machine 31 15 [] [(31, 0x0FC40005)]

/-- The same machine Halted. -/
def halted : State := running.setControl .halted

/-- A machine that faulted on its fetch at address 32, one past its memory. -/
def faulted : State := after (machine 32 15 [] [])

theorem witness_StepRunsDecodedInstruction : running.control = .running ∧
    running.mem.read (running.getReg 15#4) = some 0x0FC40005#32 ∧ decode 0x0FC40005#32 = .ok (.add 15 1 0 0 5) := by
  decide
theorem witness_NoStepOutsideRunning : halted.control ≠ .running ∧ faulted.control ≠ .running := by decide
theorem witness_NoStepOutsideRunning_step : ∃ u, step running = .next u := ⟨after running, rfl⟩
theorem witness_StartSetsControlAndPcOnly : halted.control ≠ .faulted ∧ running.control ≠ .faulted ∧
    halted.mem.validAddr 32 = false ∧ running.mem.validAddr 0xFFFFFFFF = false := by decide
theorem witness_FaultedLeftOnlyByReset : faulted.control = .faulted ∧ HostCommand.start 0 ≠ .reset ∧
    HostCommand.load 0 0 ≠ .reset ∧ HostCommand.step true true ≠ .reset := by decide
theorem witness_HostLoadsOnlyOutsideRuns : running.control = .running ∧ halted.mem.validAddr 32 = false ∧
    halted.control ≠ .running ∧ halted.mem.validAddr 0 = true ∧ halted.mem.validAddr 31 = true := by decide
theorem witness_StoppedMachineStaysPut : halted.control ≠ .running ∧ faulted.control ≠ .running := by decide
theorem witness_RegisterFileReadsBack : (15#4 : RegIdx) ≠ 0#4 ∧ (1#4 : RegIdx) ≠ 0#4 ∧ (14#4 : RegIdx) ≠ 15#4 := by
  decide
theorem witness_AddressValidityIsUnsigned : (Memory.mk (2 ^ 31) []).capacity ≤ 2 ^ 31 ∧
    (Memory.mk (2 ^ 31) []).validAddr 0x7FFFFFFF = true ∧ (Memory.mk (2 ^ 31) []).validAddr 0x80000000 = false := by
  decide
theorem witness_MemoryReadsBack : running.mem.validAddr 31 = true ∧ (30#32 : Word) ≠ 31#32 ∧ running.mem.wf ∧
    running.mem.validAddr 32 = false := by decide
theorem witness_BitFieldConstructionIsChecked : ∃ f, BitField.make? 0 31 = some f := ⟨⟨0, 31, by decide⟩, by decide⟩
theorem witness_ExtractSignedAgrees : (0x1FF#32).getLsbD offsetField.toBit = false := by decide
theorem witness_InsertSetsFieldOnly : -2 ^ (offsetField.width - 1) ≤ (-512 : Int) ∧
    (-512 : Int) < 2 ^ (offsetField.width - 1) ∧ (511 : Int) < 2 ^ (offsetField.width - 1) ∧ offsetField.toBit < 10 ∧
    (9 : Nat) < opcodeField.fromBit := by decide
theorem witness_SignExtendAgrees : (2 ≤ 2 ∧ 2 ≤ 32 ∧ 3 < 2 ^ 2) ∧ offsetField.fromBit = 0 ∧
    offsetField.toBit = 10 - 1 ∧ (2 ≤ 10 ∧ 10 ≤ 32 ∧ 1023 < 2 ^ 10) ∧
    ¬ (2 ≤ 1 ∧ 1 ≤ 32 ∧ 1 < 2 ^ 1) ∧ ¬ (2 ≤ 33 ∧ 33 ≤ 32 ∧ 1 < 2 ^ 33) ∧ ¬ (2 ≤ 3 ∧ 3 ≤ 32 ∧ 8 < 2 ^ 3) := by decide
theorem witness_EncodeIsSixInserts : (Instr.div 15 15 15 15 (-512)).wellFormed = true ∧
    (fieldValues opcodeMap (.div 15 15 15 15 (-512))).Perm (fieldValues opcodeMap (.div 15 15 15 15 (-512))) :=
  ⟨by decide, List.Perm.refl _⟩
theorem witness_DecodeOfEncode : (Instr.halt 0 15 0 15 511).wellFormed = true ∧
    (Instr.div 15 0 15 0 (-512)).wellFormed = true := by decide
theorem witness_EncodeOfDecode : opcodeMap.number .div = (0x1FFFFFFF#32).extractLsb' 26 6 := by decide
theorem witness_OperandsFit33Bits : (-512 : Int) ≤ -512 ∧ (-512 : Int) ≤ 511 ∧ (511 : Int) ≤ 511 := by decide
theorem witness_DecoderPortAgrees : decode 0x1E3B7200#32 = .ok (.div 8 14 13 12 (-512)) ∧
    (decoderPort opcodeMap 0x1E3B7200#32).valid = true ∧ (decoderPort opcodeMap 0x10000000#32).valid = false := by decide
theorem witness_AluTableMissFails : ∀ op, opcodeMap.number op ≠ 4#6 := by intro op; cases op <;> decide
theorem witness_DivTruncatesTowardZero : (aluExecWith opcodeMap (opcodeMap.number .div) (-7) 2).flag ≠ 8#4 ∧
    (aluExecWith opcodeMap (opcodeMap.number .div) 2147483647 (-1)).flag ≠ 8#4 := by decide
theorem witness_AddExecutes : 0x0FC40005#32 &&& 0xFC000000#32 = 0x0C000000#32 ∧
    decode 0x0FC40005#32 = .ok (.add 15 1 0 0 5) ∧ running.cond &&& 1#4 ≠ 0#4 := by decide
theorem witness_SubExecutes : 0x14BFC3FD#32 &&& 0xFC000000#32 = 0x14000000#32 ∧
    decode 0x14BFC3FD#32 = .ok (.sub 2 15 15 0 (-3)) ∧ running.cond &&& 2#4 ≠ 0#4 := by decide
theorem witness_MulExecutes : 0x1BD04800#32 &&& 0xFC000000#32 = 0x18000000#32 ∧
    decode 0x1BD04800#32 = .ok (.mul 15 4 1 2 0) ∧ running.cond &&& 15#4 ≠ 0#4 := by decide
theorem witness_DivExecutes : 0x1E3B7200#32 &&& 0xFC000000#32 = 0x1C000000#32 ∧
    decode 0x1E3B7200#32 = .ok (.div 8 14 13 12 (-512)) ∧ running.cond &&& 8#4 ≠ 0#4 := by decide
theorem witness_LoadExecutes : 0x07C803FF#32 &&& 0xFC000000#32 = 0x04000000#32 ∧
    decode 0x07C803FF#32 = .ok (.load 15 2 0 0 (-1)) ∧ running.cond &&& 15#4 ≠ 0#4 ∧
    running.mem.validAddr (resultWord (addressSum 15 0 0 running)) = true ∧
    running.mem.validAddr (resultWord (addressSum 0 0 0 running)) = true ∧
    running.mem.validAddr (resultWord (addressSum 15 0 1 running)) = false ∧
    running.mem.validAddr (resultWord (addressSum 0 0 (-1) running)) = false := by decide
theorem witness_StoreExecutes : 0x0BC7C001#32 &&& 0xFC000000#32 = 0x08000000#32 ∧
    decode 0x0BC7C001#32 = .ok (.store 15 1 15 0 1) ∧ running.cond &&& 15#4 ≠ 0#4 ∧
    running.mem.validAddr (aluCall .store 15 0 0 running).result = true ∧
    running.mem.validAddr (aluCall .store 0 0 0 running).result = true ∧
    running.mem.validAddr (aluCall .store 15 0 1 running).result = false ∧
    running.mem.validAddr (aluCall .store 0 0 (-1) running).result = false := by decide
theorem witness_HaltExecutes : 0x00800000#32 &&& 0xFC000000#32 = 0x00000000#32 ∧
    decode 0x00800000#32 = .ok (.halt 2 0 0 0 0) ∧ running.cond &&& 2#4 ≠ 0#4 ∧
    (machine 3 flagP [] []).cond &&& 2#4 = 0#4 := by decide
theorem witness_SkippedInstructionOnlyAdvancesPc : (machine 0 flagP [] []).cond &&& (Instr.load 2 2 0 0 (-1)).pred = 0#4
    ∧ running.cond &&& (Instr.halt 0 0 0 0 0).pred = 0#4 := by decide
theorem witness_ExecutedInstructionReplacesCond : running.cond &&& (Instr.store 15 1 0 0 (-1)).pred ≠ 0#4 := by decide
theorem witness_ControlTransferTable : running.cond &&& (Instr.load 15 15 0 0 31).pred ≠ 0#4 ∧
    (Instr.load 15 15 0 0 31).rt = 15#4 := by decide
theorem witness_NamedRegistersDecideOutcome :
    let s₁ := machine 31 15 [(5, 1)] [(31, 0x0FC40005)]
    let s₂ := machine 31 15 [(5, 2)] [(31, 0x0FC40005)]
    s₁.cond = s₂.cond ∧ s₁.control = s₂.control ∧ s₁.fault = s₂.fault ∧ s₁.mem = s₂.mem ∧
      s₁.getReg 15#4 = s₂.getReg 15#4 ∧ s₁.getReg (Instr.add 15 5 0 0 5).rs1 = s₂.getReg (Instr.add 15 5 0 0 5).rs1 ∧
      s₁.getReg (Instr.add 15 5 0 0 5).rs2 = s₂.getReg (Instr.add 15 5 0 0 5).rs2 ∧ s₁.getReg 5 ≠ s₂.getReg 5 ∧
      s₁.cond &&& (Instr.add 15 5 0 0 5).pred ≠ 0#4 := by decide
theorem witness_StepFaultsArePrecise_fetch : (machine 32 15 [] []).control = .running ∧
    (machine 32 15 [] []).mem.validAddr ((machine 32 15 [] []).getReg 15#4) = false := by decide
theorem witness_StepFaultsArePrecise_decode :
    (machine 31 15 [] [(31, 0x10000000)]).control = .running ∧
    (machine 31 15 [] [(31, 0x10000000)]).mem.read ((machine 31 15 [] [(31, 0x10000000)]).getReg 15#4)
      = some 0x10000000#32 ∧ ∀ i, decode 0x10000000#32 ≠ .ok i := by
  refine ⟨by decide, by decide, fun i h => ?_⟩
  have : decode 0x10000000#32 = .error (.unrecognisedOpcode 4) := by decide
  rw [this] at h
  cases h
theorem witness_ObserverSeesDecodedSteps : observed running = some ⟨31, 0x0FC40005, .add 15 1 0 0 5⟩ := by decide
theorem witness_ControlTransitions : halted.control ≠ .faulted ∧ running.control ≠ .faulted ∧
    faulted.control = .faulted ∧ ∃ u, step running = .next u :=
  ⟨by decide, by decide, by decide, after running, rfl⟩

/-- STORE r1,r15,r0[1] at 4, with the next cell holding another Word (V154). -/
def storing : State := machine 4 15 [] [(4, 0x0BC7C001), (5, 0x0FC40005)]

theorem witness_OnlyStoreChangesMemory : ∃ u, step storing = .next u ∧ u.mem.peek 5 ≠ storing.mem.peek 5 :=
  ⟨after storing, rfl, by decide⟩
theorem witness_OnlyAccessesFault : running.control ≠ .faulted ∧
    (∃ u, exec (.load 15 2 0 0 32) running = .next u ∧ u.control = .faulted) ∧
    ∃ u, exec (.store 15 2 0 0 (-1)) running = .next u ∧ u.control = .faulted :=
  ⟨by decide, ⟨_, rfl, by decide⟩, ⟨_, rfl, by decide⟩⟩
theorem witness_StoreIsSeenByNextFetch : Executes storing (.store 15 1 15 0 1) ∧
    storing.mem.validAddr (aluCall .store 15 0 1 storing).result = true ∧
    (∃ u, step storing = .next u ∧ u.getReg 15#4 = (aluCall .store 15 0 1 storing).result ∧
      decode (u.getReg 1) = .ok (.halt 0 0 0 0 5)) :=
  ⟨⟨by decide, 0x0BC7C001, by decide, by decide, by decide⟩, by decide, after storing, rfl, by decide, by decide⟩
theorem witness_GoodIsKeptByStep : running.Good ∧ ∃ u, step running = .next u :=
  ⟨⟨by decide, .inl (by decide), fun _ => by decide, fun h => absurd h (by decide)⟩, after running, rfl⟩
theorem witness_GoodIsKeptByHost : halted.Good ∧ faulted.Good := by
  refine ⟨⟨by decide, .inl (by decide), fun _ => by decide, fun h => absurd h (by decide)⟩,
    ⟨by decide, .inl (by decide), fun h => absurd (by decide) h, fun _ => ?_⟩⟩
  show faulted.fault.explains faulted.mem faulted.params.opcodes
  have : faulted.fault = ⟨.fetchOutOfRange, 32, 0⟩ := by decide
  rw [this]
  exact ⟨by decide, by decide⟩

theorem witness_ParametersAreFixed : (∃ u, exec (.store 15 1 0 0 31) running = .next u) ∧ ∃ u, step running = .next u :=
  ⟨⟨_, rfl⟩, after running, rfl⟩
theorem witness_ResetReturnsToStartAddress :
    let s := [HostCommand.step false false, .step false false, .load 5 9, .start 1].foldl (fun s c => hostApply c s)
      otherMachine
    s.mem.validAddr 3 = true ∧ decodeWith otherParameters.opcodes (s.mem.peek 3) = .ok (.add 15 1 0 0 5) ∧ s.pc = 1 := by
  decide
theorem witness_ParametersDecideNoEffect : (∃ u, exec (.load 15 2 0 0 32) running = .next u) ∧
    running.params ≠ otherParameters := ⟨⟨_, rfl⟩, by decide⟩
theorem witness_StepFollowsOwnOpcodeMap : (Instr.add 15 1 0 0 5).wellFormed = true ∧
    encodeWith otherMachine.params.opcodes (.add 15 1 0 0 5) = .ok 0x03C40005#32 ∧ otherMachine.control = .running ∧
    otherMachine.mem.read (otherMachine.getReg 15#4) = some 0x03C40005#32 := by decide
theorem witness_HostReadsShowWholeState : hostStatus otherMachine = hostStatus (hostReset otherMachine) ∧
    hostReadCond otherMachine = hostReadCond (hostReset otherMachine) ∧
    (∀ r, hostReadReg r otherMachine = hostReadReg r (hostReset otherMachine)) ∧
    ∀ a, hostReadMem a otherMachine = hostReadMem a (hostReset otherMachine) :=
  ⟨by decide, by decide, by decide, fun _ => rfl⟩

end Sys2Proof.Tests
end

/-! SUPPORT. Facts about the state that the statements on 10_state.md share: the flag of the ALU, the frame of phases 5
and 6, the capacity of memory, and what an instruction reads. -/

namespace Sys2Proof.Machine

/-! ## The flag of the ALU (10_state.md R33) -/

theorem condLegal_signFlag (r : Int) : condLegal (signFlag r) := by
  unfold signFlag
  split
  · exact .inr (.inr (.inl rfl))
  · split
    · exact .inr (.inl rfl)
    · exact .inr (.inr (.inr (.inl rfl)))

theorem condLegal_aluFailure : condLegal aluFailure.flag := .inr (.inr (.inr (.inr rfl)))

theorem condLegal_packResult (r : Int) : condLegal (packResult r).flag := by
  rcases packResult_cases r with ⟨_, _, e⟩ | ⟨_, e⟩ <;> rw [e]
  · exact condLegal_signFlag r
  · exact condLegal_aluFailure

theorem condLegal_aluOp (op : Opcode) (x y : Int) : condLegal (aluOp op x y).flag := by
  unfold aluOp
  split
  · exact condLegal_aluFailure
  · exact condLegal_packResult _

theorem condLegal_aluCall (op : Opcode) (a b : RegIdx) (off : Int) (s : State) :
    condLegal (aluCall op a b off s).flag := by
  rw [aluCall_eq]
  exact condLegal_aluOp ..

/-- The ALU call reads the two source registers and nothing else of the state. -/
theorem aluCall_congr {s₁ s₂ : State} {a b : RegIdx} (ha : s₁.getReg a = s₂.getReg a)
    (hb : s₁.getReg b = s₂.getReg b) (op : Opcode) (off : Int) : aluCall op a b off s₁ = aluCall op a b off s₂ := by
  simp [aluCall_eq, operand1, operand2, ha, hb]

/-! ## Memory -/

/-- Whether an address is valid depends on the capacity alone. -/
theorem validAddr_congr {m m' : Memory} (h : m.capacity = m'.capacity) (a : Word) :
    m.validAddr a = m'.validAddr a := by
  simp [Memory.validAddr, h]

/-! ## Phases 4 to 6 -/

/-- What phase 4 can do. -/
theorem gated_cases (p : Flags) (s e : State) :
    (s.cond &&& p ≠ 0#4 ∧ gated p s e = e) ∨ (s.cond &&& p = 0#4 ∧ gated p s e = skip s) := by
  by_cases h : s.cond &&& p = 0#4
  · exact .inr ⟨h, gated_skip h e⟩
  · exact .inl ⟨h, gated_pass h e⟩

@[simp] theorem loadEffect_cond (t : RegIdx) (a : Word) (s : State) : (loadEffect t a s).cond = s.cond := by
  rcases loadEffect_cases t a s with ⟨_, e⟩ | ⟨_, e⟩ <;> simp [e]

@[simp] theorem storeEffect_cond (t : RegIdx) (a : Word) (s : State) : (storeEffect t a s).cond = s.cond := by
  rcases storeEffect_cases t a s with ⟨_, e⟩ | ⟨_, e⟩ <;> simp [e]

/-- Phase 6 of LOAD changes no register but the target. -/
theorem getReg_loadEffect_of_ne {t r : RegIdx} (h : r ≠ t) (a : Word) (s : State) :
    (loadEffect t a s).getReg r = s.getReg r := by
  rcases loadEffect_cases t a s with ⟨_, e⟩ | ⟨_, e⟩ <;> rw [e]
  · rw [getReg_setReg, if_neg h]
    split
    · next h0 => rw [h0, getReg_zero]
    · rfl
  · exact getReg_raise ..

/-- Phase 6 of STORE changes no register. -/
@[simp] theorem getReg_storeEffect (t : RegIdx) (a : Word) (s : State) (r : RegIdx) :
    (storeEffect t a s).getReg r = s.getReg r := by
  rcases storeEffect_cases t a s with ⟨_, e⟩ | ⟨_, e⟩ <;> simp [e]

/-- Phase 5 changes no register but the target and register 15. -/
theorem getReg_genericWrite_of_ne {t r : RegIdx} (h15 : r ≠ 15#4) (ht : r ≠ t) (o : AluOut) (s : State) :
    (genericWrite t o s).getReg r = s.getReg r := by
  rw [getReg_genericWrite, if_neg h15, if_neg ht]
  split
  · next h0 => rw [h0, getReg_zero]
  · rfl

/-! ## Executed instructions -/

/-- An executed instruction replaces `cond` by the flag of its ALU call. -/
@[simp] theorem executed_cond (i : Instr) (s : State) :
    (executed i s).cond = (aluCall i.opcode i.rs1 i.rs2 i.off s).flag := by
  cases i <;> simp [executed, haltEffect, Instr.opcode, Instr.rs1, Instr.rs2, Instr.off]

/-- An executed instruction changes no register but its target and register 15 (10_state.md R27). -/
theorem getReg_executed_of_ne {i : Instr} {r : RegIdx} (h15 : r ≠ 15#4) (ht : r ≠ i.rt) (s : State) :
    (executed i s).getReg r = s.getReg r := by
  cases i with
  | load => exact (getReg_loadEffect_of_ne ht _ _).trans (getReg_genericWrite_of_ne h15 ht _ _)
  | store => exact (getReg_storeEffect ..).trans (getReg_genericWrite_of_ne h15 ht _ _)
  | halt | add | sub | mul | div => exact getReg_genericWrite_of_ne h15 ht _ s

/-- No instruction, executed or skipped, changes another register than its target and register 15. -/
theorem getReg_gated_of_ne {i : Instr} {r : RegIdx} (h15 : r ≠ 15#4) (ht : r ≠ i.rt) (s : State) :
    (gated i.pred s (executed i s)).getReg r = s.getReg r := by
  rcases gated_cases i.pred s (executed i s) with ⟨_, e⟩ | ⟨_, e⟩ <;> rw [e]
  · exact getReg_executed_of_ne h15 ht s
  · rw [getReg_skip, if_neg h15]

/-- An executed instruction keeps the capacity of memory (20_memory.md R52). -/
@[simp] theorem executed_capacity (i : Instr) (s : State) : (executed i s).mem.capacity = s.mem.capacity := by
  rcases executed_mem_cases i s with e | ⟨_, _, _, _, _, _, _, _, e⟩ <;> simp [e]

@[simp] theorem gated_capacity (i : Instr) (s : State) :
    (gated i.pred s (executed i s)).mem.capacity = s.mem.capacity := by
  rcases gated_cases i.pred s (executed i s) with ⟨_, e⟩ | ⟨_, e⟩ <;> simp [e]

/-- An executed instruction keeps the canonical form of memory. -/
theorem wf_executed (i : Instr) {s : State} (h : s.mem.wf) : (executed i s).mem.wf := by
  rcases executed_mem_cases i s with e | ⟨_, _, _, _, _, _, hv, v, e⟩ <;> rw [e]
  · exact h
  · exact wf_poke h (toNat_lt_of_validAddr hv) v

/-! ## The parameters and the capacity -/

theorem step_params {s u : State} (h : step s = .next u) : u.params = s.params := by
  obtain ⟨_, ⟨_, rfl⟩ | ⟨_, _, rfl⟩ | ⟨_, i, _, rfl⟩⟩ := step_cases h <;> simp

theorem step_capacity {s u : State} (h : step s = .next u) : u.mem.capacity = s.mem.capacity := by
  obtain ⟨_, ⟨_, rfl⟩ | ⟨_, _, rfl⟩ | ⟨_, i, _, rfl⟩⟩ := step_cases h <;> simp

/-- A request for one step, with or without its permit, changes neither the parameters nor the capacity. -/
theorem hostStep_params_capacity (m k : Bool) (s : State) :
    (hostStep m k s).params = s.params ∧ (hostStep m k s).mem.capacity = s.mem.capacity := by
  unfold hostStep
  split
  · exact ⟨rfl, rfl⟩
  · rcases stepRequest_cases s with ⟨u, hu, e⟩ | ⟨_, e⟩ <;> rw [e]
    · exact ⟨step_params hu, step_capacity hu⟩
    · exact ⟨rfl, rfl⟩

theorem hostApply_params_capacity (c : HostCommand) (s : State) :
    (hostApply c s).params = s.params ∧ (hostApply c s).mem.capacity = s.mem.capacity := by
  cases c with
  | reset => exact ⟨rfl, rfl⟩
  | start a => rcases hostStart_cases a s with ⟨_, e⟩ | ⟨_, e⟩ <;> simp [hostApply, e]
  | load a w => rcases hostLoad_cases a w s with ⟨_, e⟩ | ⟨_, _, e⟩ <;> simp [hostApply, e]
  | step m k => exact hostStep_params_capacity m k s

/-! ## The invariant of the machine -/

/-- The reset state of any machine with a legal capacity and any parameters is good. -/
theorem good_resetWith (p : Parameters) {n : Nat} (h1 : 1 ≤ n) (h2 : n ≤ 2 ^ 31) : (State.resetWith p n).Good where
  mem_wf := ⟨h1, h2, List.Pairwise.nil, by simp [State.resetWith]⟩
  cond_legal := .inl rfl
  fault_empty _ := rfl
  fault_why h := nomatch h

/-- A fault keeps the invariant when its record explains it. -/
theorem good_raise {s : State} (h : s.Good) {c : FaultCause} {a w : Word}
    (hf : FaultRecord.explains { cause := c, address := a, word := w } s.mem s.params.opcodes) :
    (s.raise c a w).Good where
  mem_wf := h.mem_wf
  cond_legal := h.cond_legal
  fault_empty hc := absurd rfl hc
  fault_why _ := hf

theorem good_skip {s : State} (h : s.Good) : (skip s).Good where
  mem_wf := by simpa only [skip_mem] using h.mem_wf
  cond_legal := by simpa only [skip_cond] using h.cond_legal
  fault_empty := by simpa only [skip_control, skip_fault] using h.fault_empty
  fault_why := by simpa only [skip_control, skip_fault, skip_mem, skip_params] using h.fault_why

/-- An executed instruction that leaves the machine Faulted explains it: LOAD or STORE at an address that is not valid
(60_exceptions.md R231). -/
theorem executed_fault_explains {i : Instr} {s : State} (hr : s.control = .running)
    (hf : (executed i s).control = .faulted) :
    (executed i s).fault.explains (executed i s).mem (executed i s).params.opcodes := by
  rcases executed_control_cases i s with ⟨_, hc, _⟩ | ⟨_, hv, _, e⟩ | ⟨_, _, hc, _⟩
  · rw [hc] at hf; cases hf
  · rw [← validAddr_congr (executed_capacity i s)] at hv
    rw [e]
    split
    · exact ⟨hv, rfl⟩
    · exact ⟨hv, rfl⟩
  · rw [hc, hr] at hf; cases hf

/-- An executed instruction that does not leave the machine Faulted leaves the fault record alone. -/
theorem executed_fault_of_not_faulted {i : Instr} {s : State} (hf : (executed i s).control ≠ .faulted) :
    (executed i s).fault = s.fault := by
  rcases executed_control_cases i s with ⟨_, _, e⟩ | ⟨_, _, hc, _⟩ | ⟨_, _, _, e⟩
  · exact e
  · exact absurd hc hf
  · exact e

/-- An instruction executed in Running keeps the invariant. -/
theorem good_executed (i : Instr) {s : State} (h : s.Good) (hr : s.control = .running) : (executed i s).Good where
  mem_wf := wf_executed i h.mem_wf
  cond_legal := by rw [executed_cond]; exact condLegal_aluCall ..
  fault_empty hf := (executed_fault_of_not_faulted hf).trans (h.fault_empty (by simp [hr]))
  fault_why hf := executed_fault_explains hr hf

/-- Every step keeps the invariant. -/
theorem good_step {s u : State} (h : s.Good) (hu : step s = .next u) : u.Good := by
  obtain ⟨hr, ⟨hv, rfl⟩ | ⟨hv, hd, rfl⟩ | ⟨_, i, _, rfl⟩⟩ := step_cases hu
  · exact good_raise h ⟨hv, rfl⟩
  · exact good_raise h ⟨hv, hd⟩
  · rcases gated_cases i.pred s (executed i s) with ⟨_, e⟩ | ⟨_, e⟩ <;> rw [e]
    · exact good_executed i h hr
    · exact good_skip h

/-! ## Noninterference (10_state.md R27) -/

/-- Two states agree on everything but the parameters and the registers outside `R`. -/
structure AgreeOn (R : Set RegIdx) (s₁ s₂ : State) : Prop where
  cond    : s₁.cond = s₂.cond
  control : s₁.control = s₂.control
  fault   : s₁.fault = s₂.fault
  mem     : s₁.mem = s₂.mem
  reg     : ∀ r ∈ R, s₁.getReg r = s₂.getReg r

section Agreement

variable {R : Set RegIdx} {s₁ s₂ : State}

/-- Writing one value to one register of both states makes them agree on it. -/
theorem AgreeOn.setReg (h : AgreeOn R s₁ s₂) (i : RegIdx) (v : Word) :
    AgreeOn (insert i R) (s₁.setReg i v) (s₂.setReg i v) where
  cond := by simpa using h.cond
  control := by simpa using h.control
  fault := by simpa using h.fault
  mem := by simpa using h.mem
  reg r hr := by
    rw [getReg_setReg, getReg_setReg]
    rcases hr with rfl | hr
    · simp
    · rw [h.reg r hr]

theorem AgreeOn.incReg (h : AgreeOn R s₁ s₂) {i : RegIdx} (hi : i ∈ R) : AgreeOn R (s₁.incReg i) (s₂.incReg i) := by
  unfold State.incReg
  rw [h.reg i hi]
  simpa only [Set.insert_eq_of_mem hi] using h.setReg i (s₂.getReg i + 1#32)

theorem AgreeOn.setCond (h : AgreeOn R s₁ s₂) (f : Flags) : AgreeOn R (s₁.setCond f) (s₂.setCond f) :=
  { h with cond := rfl }

theorem AgreeOn.setControl (h : AgreeOn R s₁ s₂) (c : Control) : AgreeOn R (s₁.setControl c) (s₂.setControl c) :=
  { h with control := rfl }

theorem AgreeOn.setMem (h : AgreeOn R s₁ s₂) (m : Memory) : AgreeOn R (s₁.setMem m) (s₂.setMem m) :=
  { h with mem := rfl }

theorem AgreeOn.raise (h : AgreeOn R s₁ s₂) (c : FaultCause) (a w : Word) :
    AgreeOn R (s₁.raise c a w) (s₂.raise c a w) :=
  { h with control := rfl, fault := rfl }

theorem AgreeOn.genericWrite (h : AgreeOn R s₁ s₂) (hpc : 15#4 ∈ R) (t : RegIdx) {o₁ o₂ : AluOut} (ho : o₁ = o₂) :
    AgreeOn (insert t R) (genericWrite t o₁ s₁) (genericWrite t o₂ s₂) := by
  subst ho
  exact ((h.setReg t o₁.result).setCond o₁.flag).incReg (Set.mem_insert_of_mem t hpc)

theorem AgreeOn.loadEffect (h : AgreeOn R s₁ s₂) {t : RegIdx} (ht : t ∈ R) {a₁ a₂ : Word} (ha : a₁ = a₂) :
    AgreeOn R (loadEffect t a₁ s₁) (loadEffect t a₂ s₂) := by
  unfold Machine.loadEffect
  rw [ha, h.mem]
  cases s₂.mem.read a₂ with
  | none => exact h.raise ..
  | some w => simpa only [Set.insert_eq_of_mem ht] using h.setReg t w

theorem AgreeOn.storeEffect (h : AgreeOn R s₁ s₂) {t : RegIdx} (ht : t ∈ R) {a₁ a₂ : Word} (ha : a₁ = a₂) :
    AgreeOn R (storeEffect t a₁ s₁) (storeEffect t a₂ s₂) := by
  unfold Machine.storeEffect
  rw [ha, h.mem, h.reg t ht]
  cases s₂.mem.write a₂ (s₂.getReg t) with
  | none => exact h.raise ..
  | some m => exact h.setMem m

/-- An instruction executed in two states that agree on the program counter and on its sources leaves them in agreement,
on its target as well. -/
theorem AgreeOn.executed (h : AgreeOn R s₁ s₂) (hpc : 15#4 ∈ R) {i : Instr} (h1 : i.rs1 ∈ R) (h2 : i.rs2 ∈ R) :
    AgreeOn (insert i.rt R) (executed i s₁) (executed i s₂) := by
  have call (op) := aluCall_congr (h.reg _ h1) (h.reg _ h2) op i.off
  have address (op) := congrArg AluOut.result (call op)
  have generic (op) := h.genericWrite hpc i.rt (call op)
  have target : i.rt ∈ insert i.rt R := Set.mem_insert i.rt R
  cases i with
  | halt => exact (generic .halt).setControl .halted
  | load => exact (generic .load).loadEffect target (address .load)
  | store => exact (generic .store).storeEffect target (address .store)
  | add => exact generic .add
  | sub => exact generic .sub
  | mul => exact generic .mul
  | div => exact generic .div

/-- An instruction, executed or skipped, in two states that agree on the program counter and on its sources leaves them
in agreement. -/
theorem AgreeOn.gated (h : AgreeOn R s₁ s₂) (hpc : 15#4 ∈ R) {i : Instr} (h1 : i.rs1 ∈ R) (h2 : i.rs2 ∈ R) :
    AgreeOn R (gated i.pred s₁ (Machine.executed i s₁)) (gated i.pred s₂ (Machine.executed i s₂)) := by
  by_cases hp : s₂.cond &&& i.pred = 0#4
  · rw [gated_skip hp, gated_skip (h.cond ▸ hp)]
    exact h.incReg hpc
  · rw [gated_pass hp, gated_pass (h.cond ▸ hp)]
    have e := h.executed hpc h1 h2
    exact { e with reg := fun r hr => e.reg r (Set.mem_insert_of_mem _ hr) }

end Agreement

end Sys2Proof.Machine

/-! PROOF. The statements on the state (10_state.md), settled. -/

namespace Sys2Proof.Proofs

open Sys2Proof Sys2Proof.Machine Sys2Proof.Claims

/-- Settles O48, from what one step can do. -/
theorem goodIsKeptByStep : Obligations.GoodIsKeptByStep := fun _ _ h hu => good_step h hu

/-- Settles O40: the two runs agree on the registers the instruction reads, and each leaves the others alone. -/
theorem namedRegistersDecideOutcome : Obligations.NamedRegistersDecideOutcome := by
  intro i s₁ s₂ hcond hcontrol hfault hmem hpc h1 h2
  have agree : AgreeOn {15#4, i.rs1, i.rs2} s₁ s₂ :=
    ⟨hcond, hcontrol, hfault, hmem, by rintro r (rfl | rfl | rfl) <;> assumption⟩
  have after := agree.gated (i := i) (by simp) (by simp) (by simp)
  refine ⟨_, _, exec_eq i s₁, exec_eq i s₂, after.cond, after.control, after.fault, after.mem,
    after.reg _ (by simp), fun hp => ?_, fun r h15 ht => ⟨getReg_gated_of_ne h15 ht s₁, getReg_gated_of_ne h15 ht s₂⟩⟩
  rw [gated_pass hp, gated_pass (hcond ▸ hp)]
  exact (agree.executed (by simp) (by simp) (by simp)).reg _ (Set.mem_insert _ _)

/-- Settles O45: a cell reads otherwise only where the executed STORE set it. -/
theorem onlyStoreChangesMemory : Obligations.OnlyStoreChangesMemory := by
  intro s u hu
  refine ⟨step_capacity hu, fun x hx => ?_⟩
  obtain ⟨hr, ⟨_, rfl⟩ | ⟨_, _, rfl⟩ | ⟨hv, i, hd, rfl⟩⟩ := step_cases hu
  · exact absurd rfl hx
  · exact absurd rfl hx
  · rcases gated_cases i.pred s (executed i s) with ⟨hp, e⟩ | ⟨_, e⟩ <;> rw [e] at hx
    · rcases executed_mem_cases i s with em | ⟨p, t, a, b, off, rfl, ha, v, em⟩ <;> rw [em] at hx
      · exact absurd rfl hx
      · refine ⟨p, t, a, b, off, ⟨hr, _, by rw [Memory.read, if_pos hv], hd, hp⟩, ha, ?_⟩
        by_contra hne
        exact hx (by rw [peek_poke, if_neg hne])
    · exact absurd (by rw [skip_mem]) hx

/-- Settles O50, from what an instruction, a step and a host transaction can do. -/
theorem parametersAreFixed : Obligations.ParametersAreFixed := by
  refine ⟨fun i s u hu => ?_, fun s u hu => ⟨step_params hu, step_capacity hu⟩, hostApply_params_capacity⟩
  rw [exec_eq] at hu
  cases hu
  exact ⟨gated_params .., gated_capacity ..⟩

/-- Settles O3: the capacity of the reset state is the largest legal one. -/
theorem resetStateIsGood : Obligations.ResetStateIsGood :=
  good_resetWith _ (by norm_num [Config.memWords]) (le_refl _)

/-- Settles O10, from what a register reads after a write. -/
theorem registerFileReadsBack : Obligations.RegisterFileReadsBack := by
  intro s i v
  have own : i ≠ 0#4 → (s.setReg i v).getReg i = v ∧
      ((s.incReg i).getReg i).toNat = ((s.getReg i).toNat + 1) % 2 ^ 32 := fun hi => by
    simp [getReg_setReg, getReg_incReg, hi, BitVec.toNat_add]
  have other : ∀ j, j ≠ i → (s.setReg i v).getReg j = s.getReg j ∧ (s.incReg i).getReg j = s.getReg j :=
    fun j hj => by by_cases h0 : j = 0#4 <;> simp [getReg_setReg, getReg_incReg, hj, h0]
  exact ⟨getReg_zero s, setReg_zero s v, setReg_zero s _, own, other, setReg_cond .., setReg_control ..,
    setReg_fault .., setReg_mem .., incReg_cond .., incReg_control .., incReg_fault .., incReg_mem ..,
    setReg_params .., incReg_params ..⟩

end Sys2Proof.Proofs

/-! SUPPORT. Facts about memory and the step that the statements on 20_memory.md share: reads and writes by the validity
of their address, a STORE at a valid address, and the step at a Word that decodes. -/

namespace Sys2Proof.Machine

open Sys2Proof.Claims

/-! ## Addresses (20_memory.md R52, R53) -/

/-- Within a capacity the spec allows, an address that counts a cell is not negative in its signed reading. -/
theorem validAddr_of_toNat_lt {m : Memory} {a : Word} (hcap : m.capacity ≤ 2 ^ 31) (h : a.toNat < m.capacity) :
    m.validAddr a = true := by
  have hsigned : a.toInt = a.toNat := BitVec.toInt_eq_toNat_of_lt (by omega)
  rw [validAddr_iff, sint32, hsigned]
  omega

/-! ## The access primitives (20_memory.md R54, R55) -/

section Access

variable {m : Memory} {a : Word}

theorem read_of_valid (h : m.validAddr a = true) : m.read a = some (m.peek a.toNat) := if_pos h

theorem write_of_valid (h : m.validAddr a = true) (v : Word) : m.write a v = some (m.poke a.toNat v) := if_pos h

theorem read_of_not_valid (h : m.validAddr a = false) : m.read a = none := if_neg (by simp [h])

theorem write_of_not_valid (h : m.validAddr a = false) (v : Word) : m.write a v = none := if_neg (by simp [h])

/-- The cell just set reads the Word it was set to. -/
theorem read_poke_same (h : m.validAddr a = true) (v : Word) : (m.poke a.toNat v).read a = some v := by
  rw [read_of_valid (by rwa [validAddr_poke]), peek_poke, if_pos rfl]

/-- Setting a cell changes the read at no other address, valid or not. -/
theorem read_poke_of_ne {b : Word} (h : b ≠ a) (v : Word) : (m.poke a.toNat v).read b = m.read b := by
  have hcell : b.toNat ≠ a.toNat := fun e => h (BitVec.eq_of_toNat_eq e)
  simp only [Memory.read, validAddr_poke, peek_poke, if_neg hcell]

end Access

/-! ## A STORE at a valid address (45_load_store.md R191) -/

/-- After a STORE at a valid address the target's Word is read there. -/
theorem read_executed_store {s : State} {a b : RegIdx} {off : Int}
    (hv : s.mem.validAddr (aluCall .store a b off s).result = true) (p : Flags) (t : RegIdx) :
    (executed (.store p t a b off) s).mem.read (aluCall .store a b off s).result =
      some ((executed (.store p t a b off) s).getReg t) := by
  have hv' : (genericWrite t (aluCall .store a b off s) s).mem.validAddr (aluCall .store a b off s).result = true := by
    rwa [genericWrite_mem]
  simp only [executed]
  rcases storeEffect_cases t (aluCall .store a b off s).result (genericWrite t (aluCall .store a b off s) s) with
    ⟨_, e⟩ | ⟨hinvalid, _⟩
  · rw [e, setMem_mem, getReg_setMem, read_poke_same hv']
  · rw [hv'] at hinvalid; cases hinvalid

/-- A STORE at a valid address leaves the control state alone. -/
theorem executed_store_control {s : State} {a b : RegIdx} {off : Int}
    (hv : s.mem.validAddr (aluCall .store a b off s).result = true) (p : Flags) (t : RegIdx) :
    (executed (.store p t a b off) s).control = s.control := by
  rcases executed_control_cases (.store p t a b off) s with ⟨h, _⟩ | ⟨_, hinvalid, _⟩ | ⟨_, _, h, _⟩
  · cases h
  · exact absurd (hv.symm.trans hinvalid) (by decide)
  · exact h

/-! ## The step at a Word that decodes (43_control_fsm.md R150) -/

/-- In Running, at a fetchable Word that decodes, the step is the meaning of the decoded instruction. -/
theorem step_of_decode {s : State} {w : Word} {i : Instr} (hr : s.control = .running)
    (hw : s.mem.read (s.getReg 15#4) = some w) (hd : decodeWith s.params.opcodes w = .ok i) : step s = exec i s := by
  simp only [step, hr, frontEnd, hw, hd]

/-- The step that executes an instruction leads to phases 5 and 6 of it. -/
theorem step_of_executes {s : State} {i : Instr} (h : Executes s i) : step s = .next (executed i s) := by
  obtain ⟨hr, w, hw, hd, hp⟩ := h
  rw [step_of_decode hr hw hd, exec_pass hp]

end Sys2Proof.Machine

/-! PROOF. The statements on memory (20_memory.md), settled. -/

namespace Sys2Proof.Proofs

open Sys2Proof Sys2Proof.Machine Sys2Proof.Claims

/-- Settles O47: the stored Word is in memory before the next fetch, and the machine is still Running. -/
theorem storeIsSeenByNextFetch : Obligations.StoreIsSeenByNextFetch := by
  intro s u p t a b off hex hv hu hpc
  have hnext : executed (.store p t a b off) s = u := by
    rw [step_of_executes hex] at hu
    exact Host.Outcome.next.inj hu
  have hfetch : u.mem.read (u.getReg 15#4) = some (u.getReg t) := by
    rw [hpc, ← hnext]
    exact read_executed_store hv p t
  have hrunning : u.control = .running := by
    rw [← hnext, executed_store_control hv, hex.1]
  have hparams : u.params = s.params := by rw [← hnext, executed_params]
  exact ⟨hfetch, fun i hd => step_of_decode hrunning hfetch (by rwa [hparams])⟩

/-- Settles O11: the bound 2^31 on the capacity makes the unsigned comparison imply a signed reading of at least 0. -/
theorem addressValidityIsUnsigned : Obligations.AddressValidityIsUnsigned := fun m a =>
  ⟨validAddr_iff m a, fun hcap => ⟨toNat_lt_of_validAddr, validAddr_of_toNat_lt hcap⟩⟩

/-- Settles O12, from what a read gives after a cell was set. -/
theorem memoryReadsBack : Obligations.MemoryReadsBack := fun m a v =>
  ⟨fun hv => ⟨m.poke a.toNat v, write_of_valid hv v, read_poke_same hv v, poke_capacity .., fun _ hb =>
      read_poke_of_ne hb v, fun hwf => wf_poke hwf (toNat_lt_of_validAddr hv) v⟩,
    fun hv => ⟨write_of_not_valid hv v, read_of_not_valid hv⟩⟩

end Sys2Proof.Proofs

/-! SUPPORT. Facts about the codec and the parameters that the statements on 30_encoding.md share: when decode fails,
decode after encode, the record of a step that decodes, and two states that differ in nothing but their parameters. -/

namespace Sys2Proof

/-! ## When decode fails (30_encoding.md R78, 41_codec.md R111) -/

/-- The opcode field alone decides whether a Word decodes. -/
theorem decodeWith_ne_ok_iff (m : OpcodeMap) (w : Word) :
    (∀ i, decodeWith m w ≠ .ok i) ↔ opcodeOf m (w.extractLsb' 26 6) = none := by
  rw [decodeWith_eq]
  cases opcodeOf m (w.extractLsb' 26 6) with
  | none => simp
  | some op => simp

/-- The default map leaves the numbers 4 and 8 to 63 free. -/
theorem opcodeOf_opcodeMap_eq_none : ∀ n : BitVec 6, opcodeOf opcodeMap n = none ↔ n = 4#6 ∨ 8 ≤ n.toNat := by
  decide

/-! ## Decode after encode (41_codec.md R116) -/

/-- An offset in the range of its field is recovered from the 10 bits it is encoded in (30_encoding.md R73). -/
theorem toInt_ofInt_of_offsetInRange {off : Int} (h : offsetInRange off = true) : (BitVec.ofInt 10 off).toInt = off := by
  simp only [offsetInRange, Bool.and_eq_true, decide_eq_true_eq] at h
  rw [BitVec.toInt_ofInt, Int.bmod_eq_of_le] <;> norm_num <;> omega

/-- The Word of a representable instruction's fields decodes to the instruction. -/
theorem decodeWith_encodeFields (m : OpcodeMap) {i : Instr} (h : i.wellFormed = true) :
    decodeWith m (encodeFields m i.opcode i.pred i.rt i.rs1 i.rs2 i.off) = .ok i := by
  obtain ⟨hop, hpred, hrt, hrs1, hrs2, hoff⟩ := (eq_encodeFields_iff m i.opcode i.pred i.rt i.rs1 i.rs2 i.off _).1 rfl
  rw [decodeWith_eq, hop, opcodeOf_number, hpred, hrt, hrs1, hrs2, hoff, toInt_ofInt_of_offsetInRange h]
  exact congrArg Except.ok (ofFields_self i)

/-- What encode answers decodes to what was encoded, under the same map. -/
theorem decodeWith_of_encodeWith {m : OpcodeMap} {i : Instr} {w : Word} (h : encodeWith m i = .ok w) :
    decodeWith m w = .ok i := by
  rcases encodeWith_cases m i with ⟨hwf, e⟩ | ⟨_, e⟩ <;> rw [e] at h <;> cases h
  exact decodeWith_encodeFields m hwf

namespace Machine

/-! ## The record of a step that decodes (43_control_fsm.md R154) -/

/-- In Running, at a fetchable Word that decodes, the observer is shown the program counter, the Word and the
instruction. -/
theorem observed_of_decode {s : State} {w : Word} {i : Instr} (hr : s.control = .running)
    (hw : s.mem.read (s.getReg 15#4) = some w) (hd : decodeWith s.params.opcodes w = .ok i) :
    observed s = some { pcAddress := s.getReg 15#4, rawWord := w, decoded := i } := by
  simp only [observed, hr, frontEnd, hw, hd]

/-! ## States that differ in nothing but their parameters (10_state.md R38) -/

theorem agreeOn_with_params (s : State) (p : Parameters) : AgreeOn Set.univ s { s with params := p } where
  cond := rfl
  control := rfl
  fault := rfl
  mem := rfl
  reg _ _ := rfl

/-- States that agree on every register and on everything else are equal but for their parameters. -/
theorem AgreeOn.eq_with_params {s₁ s₂ : State} (h : AgreeOn Set.univ s₁ s₂) : s₂ = { s₁ with params := s₂.params } := by
  have hregs : s₁.regs = s₂.regs := regs_ext fun r => h.reg r (Set.mem_univ r)
  rw [hregs, h.cond, h.control, h.fault, h.mem]

end Machine

end Sys2Proof

/-! PROOF. The statements on the encoding (30_encoding.md), settled. -/

namespace Sys2Proof.Proofs

open Sys2Proof Sys2Proof.Machine

/-- Settles O20: the opcode field decides, and of its 64 values the default map leaves 4 and 8 to 63 free. -/
theorem decodeFailsExactly : Obligations.DecodeFailsExactly :=
  ⟨fun w => (decodeWith_ne_ok_iff opcodeMap w).trans (opcodeOf_opcodeMap_eq_none _),
    fun m w => (decodeWith_ne_ok_iff m w).trans opcodeOf_eq_none⟩

/-- Settles O52: the two runs start in agreement on all but the parameters, keep it, and each keeps its parameters. -/
theorem parametersDecideNoEffect : Obligations.ParametersDecideNoEffect := by
  intro i s u p hu
  rw [exec_eq] at hu ⊢
  cases hu
  have after := (agreeOn_with_params s p).gated (i := i) (Set.mem_univ _) (Set.mem_univ _) (Set.mem_univ _)
  rw [after.eq_with_params, gated_params]

/-- Settles O53: decoding under the map that encoded gives the instruction back. -/
theorem stepFollowsOwnOpcodeMap : Obligations.StepFollowsOwnOpcodeMap := by
  intro i s w _ he hr hw
  have hd : decodeWith s.params.opcodes w = .ok i := decodeWith_of_encodeWith he
  exact ⟨step_of_decode hr hw hd, observed_of_decode hr hw hd⟩

/-- Settles O4: eight fixed Words, evaluated. -/
theorem knownWordsDecode : Obligations.KnownWordsDecode := by
  unfold Obligations.KnownWordsDecode
  decide

end Sys2Proof.Proofs

/-! SUPPORT. Facts about the BitField functions that the statements on 40_bitfield.md share: the checked construction,
the bits of a field, the range and the residue of what is extracted, and the field after an insert. -/

namespace Sys2Proof.Machine

/-! ## The checked construction (40_bitfield.md R92) -/

theorem BitField.make?_eq_none_iff {lo hi : Int} :
    BitField.make? lo hi = none ↔ ¬ (0 ≤ lo ∧ lo ≤ hi ∧ hi ≤ 31) := by
  unfold BitField.make?
  split
  case isTrue hb => simp [hb]
  case isFalse hb => simp [hb]

theorem BitField.bounds_of_make?_eq_some {lo hi : Int} {f : BitField} (h : BitField.make? lo hi = some f) :
    (f.fromBit : Int) = lo ∧ (f.toBit : Int) = hi := by
  unfold BitField.make? at h
  split at h
  case isTrue hb =>
    obtain ⟨hlo, hle, _⟩ := hb
    cases h
    exact ⟨Int.toNat_of_nonneg hlo, Int.toNat_of_nonneg (hlo.trans hle)⟩
  case isFalse => cases h

/-! ## extract and extract_signed (40_bitfield.md R93 to R96) -/

theorem extract_lt (f : BitField) (w : Word) : f.extract w < 2 ^ f.width := by
  rw [extract_eq_slice]
  exact BitVec.isLt _

/-- The bits of an extracted value are the field's bits of the Word, moved to the low-order position. -/
theorem testBit_extract (f : BitField) (w : Word) (i : Nat) :
    (f.extract w).testBit i = (decide (i < f.width) && w.getLsbD (f.fromBit + i)) := by
  rw [extract_eq_slice, BitVec.testBit_toNat, BitVec.getLsbD_extractLsb']

/-- The sign bit of the slice is the top bit of the field. -/
theorem msb_slice (f : BitField) (w : Word) : (w.extractLsb' f.fromBit f.width).msb = w.getLsbD f.toBit := by
  have hwidth := width_pos f
  have htop : f.fromBit + (f.width - 1) = f.toBit := by have := fromBit_add_width f; omega
  rw [BitVec.msb_eq_getLsbD_last, BitVec.getLsbD_extractLsb', htop]
  simp [hwidth]

theorem extractSigned_eq_extract {f : BitField} {w : Word} (h : w.getLsbD f.toBit = false) :
    f.extractSigned w = (f.extract w : Int) := by
  rw [extractSigned_eq_slice, extract_eq_slice]
  exact BitVec.toInt_eq_toNat_of_msb (by rw [msb_slice, h])

/-- The signed and the unsigned reading of a field are congruent modulo 2 to the power of its width. -/
theorem extractSigned_emod (f : BitField) (w : Word) :
    f.extractSigned w % 2 ^ f.width = (f.extract w : Int) % 2 ^ f.width := by
  rw [extractSigned_eq_slice, extract_eq_slice, BitVec.toInt_eq_toNat_bmod]
  exact_mod_cast Int.bmod_emod

/-- The signed reading of a field lies in the two's-complement range of its width (R95). -/
theorem extractSigned_mem_range (f : BitField) (w : Word) :
    -2 ^ (f.width - 1) ≤ f.extractSigned w ∧ f.extractSigned w < 2 ^ (f.width - 1) := by
  rw [extractSigned_eq_slice]
  exact ⟨BitVec.le_toInt _, BitVec.toInt_lt⟩

/-! ## insert (40_bitfield.md R99) -/

section Insert

variable (f : BitField) (w : Word)

theorem extract_insert (v : Int) : ((f.extract (f.insert v w) : Nat) : Int) = v % 2 ^ f.width := by
  have hnonneg : (0 : Int) ≤ v % 2 ^ f.width := Int.emod_nonneg _ (by positivity)
  rw [extract_eq_slice, slice_insert, BitVec.toNat_ofInt]
  exact_mod_cast Int.toNat_of_nonneg hnonneg

theorem extractSigned_insert {v : Int} (hlo : -2 ^ (f.width - 1) ≤ v) (hhi : v < 2 ^ (f.width - 1)) :
    f.extractSigned (f.insert v w) = v := by
  rw [extractSigned_eq_slice, slice_insert, BitVec.toInt_ofInt_eq_self (width_pos f) hlo hhi]

theorem getLsbD_insert_of_outside (v : Int) {j : Nat} (hj : j < 32) (h : j < f.fromBit ∨ f.toBit < j) :
    (f.insert v w).getLsbD j = w.getLsbD j := by
  have hend := fromBit_add_width f
  rw [getLsbD_insert _ _ _ hj, if_neg (by omega)]

theorem insert_extract : f.insert (f.extract w : Int) w = w := by
  apply BitVec.eq_of_getLsbD_eq
  intro j hj
  rw [getLsbD_insert _ _ _ hj]
  split
  case isTrue hin =>
    obtain ⟨hfrom, hend⟩ := hin
    have hlow : j - f.fromBit < 32 ∧ j - f.fromBit < f.width := by omega
    have hback : f.fromBit + (j - f.fromBit) = j := by omega
    rw [bits32, BitVec.ofInt_natCast, BitVec.getLsbD_ofNat, testBit_extract, hback]
    simp [hlow]
  case isFalse => rfl

end Insert

/-! ## sign_extend (40_bitfield.md R100) -/

theorem signExtend?_eq_none {field width : Nat} (h : ¬ (2 ≤ width ∧ width ≤ 32 ∧ field < 2 ^ width)) :
    signExtend? field width = none := by
  rw [signExtend?, Nat.one_shiftLeft, if_neg h]

/-- A field that begins at bit 0 extracts a value of its own width as it stands. -/
theorem extract_ofNat {f : BitField} (hfrom : f.fromBit = 0) {v : Nat} (hv : v < 2 ^ f.width) :
    f.extract (BitVec.ofNat 32 v) = v := by
  have hwidth : f.width ≤ 32 := by have := fromBit_add_width_le f; omega
  have hword : v < 2 ^ 32 := hv.trans_le (Nat.pow_le_pow_right (by decide) hwidth)
  rw [extract_eq_div_mod, hfrom, pow_zero, Nat.div_one, BitVec.toNat_ofNat, Nat.mod_eq_of_lt hword,
    Nat.mod_eq_of_lt hv]

/-- On a field that begins at bit 0 and is at least two bits wide, `sign_extend` is `extract_signed`. -/
theorem signExtend?_width {f : BitField} (hfrom : f.fromBit = 0) (hwidth : 2 ≤ f.width) {v : Nat}
    (hv : v < 2 ^ f.width) : signExtend? v f.width = some (f.extractSigned (BitVec.ofNat 32 v)) := by
  have hle : f.width ≤ 32 := by have := fromBit_add_width_le f; omega
  have hvalid : 2 ≤ f.width ∧ f.width ≤ 32 ∧ v < 1 <<< f.width := ⟨hwidth, hle, by rwa [Nat.one_shiftLeft]⟩
  rw [signExtend?, if_pos hvalid, BitField.extractSigned, extract_ofNat hfrom hv]

end Sys2Proof.Machine

/-! PROOF. The statements on the BitField (40_bitfield.md), settled. -/

namespace Sys2Proof.Proofs

open Sys2Proof Sys2Proof.Machine

/-- Settles O15, from the slice of the Word that both functions read. -/
theorem extractSignedAgrees : Obligations.ExtractSignedAgrees := fun f w =>
  ⟨extractSigned_eq_extract, extractSigned_emod f w, extractSigned_mem_range f w⟩

/-- Settles O16: the field's slice after an insert is the value's low bits, and each bit outside is the Word's. -/
theorem insertSetsFieldOnly : Obligations.InsertSetsFieldOnly := fun f v w =>
  ⟨extract_insert f w v, extractSigned_insert f w, fun _ => getLsbD_insert_of_outside f w v, insert_extract f w⟩

/-- Settles O17: a field that begins at bit 0 extracts its value as it stands. -/
theorem signExtendAgrees : Obligations.SignExtendAgrees := by
  refine fun field width => ⟨fun h2 _ hfield f hfrom hto => ?_, signExtend?_eq_none⟩
  have hwidth : f.width = width := by rw [BitField.width, hfrom, hto]; omega
  subst hwidth
  exact signExtend?_width hfrom h2 hfield

/-- Settles O13, from what the checked construction answers. -/
theorem bitFieldConstructionIsChecked : Obligations.BitFieldConstructionIsChecked := fun _ _ =>
  ⟨BitField.make?_eq_none_iff, fun _ => BitField.bounds_of_make?_eq_some⟩

/-- Settles O14: the extracted value is the slice of the Word, as wide as the field. -/
theorem extractIsBounded : Obligations.ExtractIsBounded := extract_lt

end Sys2Proof.Proofs

/-! SUPPORT. Facts about the codec that the statements on 41_codec.md share: inserts into fields that do not overlap, a
Word as the sum of its fields, which inputs encode, and that encode and decode are each other's inverse. -/

namespace Sys2Proof.Machine

/-! ## Inserts into fields that do not overlap (41_codec.md R114) -/

/-- Two fields have no bit in common. -/
abbrev BitField.Apart (f g : BitField) : Prop := f.toBit < g.fromBit ∨ g.toBit < f.fromBit

/-- The values of a list inserted one after the other, as in the statement of R114. -/
abbrev insertAll (l : List (BitField × Int)) (w : Word) : Word := l.foldl (fun x fv => fv.1.insert fv.2 x) w

theorem slice_insert_of_apart {f g : BitField} (h : f.Apart g) (v : Int) (w : Word) :
    (g.insert v w).extractLsb' f.fromBit f.width = w.extractLsb' f.fromBit f.width := by
  have hend := fromBit_add_width f
  have hvalid := f.valid
  apply BitVec.eq_of_getLsbD_eq
  intro i hi
  rw [BitVec.getLsbD_extractLsb', BitVec.getLsbD_extractLsb',
    getLsbD_insert_of_outside g w v (j := f.fromBit + i) (by omega) (by omega)]

theorem slice_insertAll_of_apart {f : BitField} {l : List (BitField × Int)} (h : ∀ fv ∈ l, f.Apart fv.1) (w : Word) :
    (insertAll l w).extractLsb' f.fromBit f.width = w.extractLsb' f.fromBit f.width := by
  induction l generalizing w with
  | nil => rfl
  | cons fv l ih =>
    obtain ⟨hhead, htail⟩ := List.forall_mem_cons.1 h
    exact (ih htail _).trans (slice_insert_of_apart hhead _ w)

/-- After inserts into fields that do not overlap, in whatever order, each field holds the low bits of its value. -/
theorem slice_insertAll {l : List (BitField × Int)} (hapart : l.Pairwise fun x y => x.1.Apart y.1) {f : BitField}
    {v : Int} (hmem : (f, v) ∈ l) (w : Word) :
    (insertAll l w).extractLsb' f.fromBit f.width = BitVec.ofInt f.width v := by
  induction l generalizing w with
  | nil => cases hmem
  | cons fv l ih =>
    obtain ⟨hhead, htail⟩ := List.pairwise_cons.1 hapart
    rcases List.mem_cons.1 hmem with rfl | hmem
    · exact (slice_insertAll_of_apart hhead _).trans (slice_insert f v w)
    · exact ih htail hmem _

end Sys2Proof.Machine

namespace Sys2Proof

open Sys2Proof.Machine Sys2Proof.Claims

theorem fieldValues_pairwise_apart (m : OpcodeMap) (i : Instr) :
    (fieldValues m i).Pairwise fun x y => x.1.Apart y.1 := by
  have hfields : [opcodeField, predicateField, regTargetField, regSrc1Field, regSrc2Field, offsetField].Pairwise
      BitField.Apart := by decide
  exact List.pairwise_map.1 (show ((fieldValues m i).map Prod.fst).Pairwise BitField.Apart from hfields)

/-- The six field values inserted in any order give the Word of the fields, whatever the Word they are inserted into:
the fields do not overlap, and they cover it. -/
theorem insertAll_eq_encodeFields {m : OpcodeMap} {i : Instr} {l : List (BitField × Int)}
    (hperm : l.Perm (fieldValues m i)) (w : Word) :
    insertAll l w = encodeFields m i.opcode i.pred i.rt i.rs1 i.rs2 i.off := by
  have hapart : l.Pairwise fun x y => x.1.Apart y.1 :=
    (hperm.pairwise_iff fun h => h.symm).2 (fieldValues_pairwise_apart m i)
  have hslices : ∀ fv ∈ fieldValues m i,
      (insertAll l w).extractLsb' fv.1.fromBit fv.1.width = BitVec.ofInt fv.1.width fv.2 :=
    fun _ hmem => slice_insertAll hapart (hperm.mem_iff.2 hmem) w
  have hnat {n : Nat} (b : BitVec n) : BitVec.ofInt n (b.toNat : Int) = b := by
    rw [BitVec.ofInt_natCast, BitVec.ofNat_toNat, BitVec.setWidth_eq]
  obtain ⟨hop, hpred, hrt, hrs1, hrs2, hoff, -⟩ := by simpa only [fieldValues, List.forall_mem_cons] using hslices
  exact (eq_encodeFields_iff ..).2 ⟨hop.trans (hnat _), hpred.trans (hnat _), hrt.trans (hnat _),
    hrs1.trans (hnat _), hrs2.trans (hnat _), hoff⟩

/-! ## A Word as the sum of its fields (41_codec.md R114) -/

/-- Every Word is the sum of its six fields, each shifted to its place (30_encoding.md R71). -/
theorem toNat_eq_sum_slices (w : Word) :
    w.toNat = (w.extractLsb' 26 6).toNat * 2 ^ 26 + (w.extractLsb' 22 4).toNat * 2 ^ 22 +
      (w.extractLsb' 18 4).toNat * 2 ^ 18 + (w.extractLsb' 14 4).toNat * 2 ^ 14 +
      (w.extractLsb' 10 4).toNat * 2 ^ 10 + (w.extractLsb' 0 10).toNat := by
  have hlt := w.isLt
  simp only [BitVec.extractLsb'_toNat, Nat.shiftRight_eq_div_pow]
  omega

theorem toNat_encodeFields (m : OpcodeMap) (op : Opcode) (p : Flags) (t a b : RegIdx) (o : Int) :
    ((encodeFields m op p t a b o).toNat : Int) = (m.number op).toNat * 2 ^ 26 + p.toNat * 2 ^ 22 + t.toNat * 2 ^ 18 +
      a.toNat * 2 ^ 14 + b.toNat * 2 ^ 10 + o % 2 ^ 10 := by
  obtain ⟨hop, hp, ht, ha, hb, ho⟩ := (eq_encodeFields_iff m op p t a b o _).1 rfl
  have hoff : ((BitVec.ofInt 10 o).toNat : Int) = o % 2 ^ 10 := by
    rw [BitVec.toNat_ofInt]
    exact Int.toNat_of_nonneg (Int.emod_nonneg o (by decide))
  rw [toNat_eq_sum_slices, hop, hp, ht, ha, hb, ho, ← hoff]
  push_cast
  rfl

/-! ## Which inputs encode (41_codec.md R115) -/

theorem offsetInRange_iff {off : Int} : offsetInRange off = true ↔ -512 ≤ off ∧ off ≤ 511 := by
  simp [offsetInRange]

theorem fourBitInRange_iff {v : Int} : fourBitInRange v = true ↔ 0 ≤ v ∧ v ≤ 15 := by
  simp [fourBitInRange]

theorem InstrRecord.wellFormed_iff {r : InstrRecord} :
    r.wellFormed = true ↔ r.opcode ≠ none ∧ (0 ≤ r.predicate ∧ r.predicate ≤ 15) ∧
      (0 ≤ r.regTarget ∧ r.regTarget ≤ 15) ∧ (0 ≤ r.regSrc1 ∧ r.regSrc1 ≤ 15) ∧
      (0 ≤ r.regSrc2 ∧ r.regSrc2 ≤ 15) ∧ (-512 ≤ r.offset ∧ r.offset ≤ 511) := by
  simp only [InstrRecord.wellFormed, Bool.and_eq_true, fourBitInRange_iff, offsetInRange_iff, and_assoc,
    Option.isSome_iff_ne_none]

/-- A record encodes exactly when it passes every check. -/
theorem exists_encodeRecordWith_iff (m : OpcodeMap) (r : InstrRecord) :
    (∃ w, encodeRecordWith m r = .ok w) ↔ r.wellFormed = true := by
  unfold encodeRecordWith InstrRecord.wellFormed
  cases r.opcode with
  | none => simp
  | some op =>
    cases fourBitInRange r.predicate with
    | false => simp
    | true =>
      cases hregs : fourBitInRange r.regTarget && fourBitInRange r.regSrc1 && fourBitInRange r.regSrc2 with
      | false => simp [hregs]
      | true => cases offsetInRange r.offset <;> simp [hregs]

/-- A representable instruction encodes to the Word of its fields. -/
theorem encodeWith_of_wellFormed (m : OpcodeMap) {i : Instr} (h : i.wellFormed = true) :
    encodeWith m i = .ok (encodeFields m i.opcode i.pred i.rt i.rs1 i.rs2 i.off) := if_pos h

/-- An instruction encodes exactly when it is representable. -/
theorem exists_encodeWith_iff (m : OpcodeMap) (i : Instr) : (∃ w, encodeWith m i = .ok w) ↔ i.wellFormed = true := by
  rcases encodeWith_cases m i with ⟨hwf, e⟩ | ⟨hwf, e⟩
  · simp [hwf, e]
  · simp [hwf, e]

/-! ## Encode and decode are inverse (41_codec.md R116, R117) -/

/-- Encoding what a Word decodes to gives the Word back: its six fields make up all of its bits. -/
theorem encodeWith_of_decodeWith {m : OpcodeMap} {w : Word} {i : Instr} (h : decodeWith m w = .ok i) :
    encodeWith m i = .ok w := by
  obtain ⟨hop, hpred, hrt, hrs1, hrs2, hoff⟩ := decodeWith_eq_ok h
  have hlow : w.extractLsb' 0 10 = BitVec.ofInt 10 i.off := by rw [hoff, BitVec.ofInt_toInt]
  have hw : w = encodeFields m i.opcode i.pred i.rt i.rs1 i.rs2 i.off :=
    (eq_encodeFields_iff ..).2 ⟨hop.symm, hpred.symm, hrt.symm, hrs1.symm, hrs2.symm, hlow⟩
  rw [encodeWith_of_wellFormed m (decodeWith_wellFormed h), ← hw]

/-- A representable instruction encodes, and decoding its Word gives it back. -/
theorem exists_encodeWith_decodeWith (m : OpcodeMap) {i : Instr} (h : i.wellFormed = true) :
    ∃ w, encodeWith m i = .ok w ∧ decodeWith m w = .ok i :=
  ⟨_, encodeWith_of_wellFormed m h, decodeWith_encodeFields m h⟩

/-- A Word decodes when its opcode field is the number of a mnemonic. -/
theorem exists_decodeWith_of_number {m : OpcodeMap} {w : Word} {op : Opcode} (h : m.number op = w.extractLsb' 26 6) :
    ∃ i, decodeWith m w = .ok i := by
  by_contra hnone
  exact opcodeOf_eq_none.1 ((decodeWith_ne_ok_iff m w).1 (not_exists.1 hnone)) op h

end Sys2Proof

/-! PROOF. The statements on the codec (41_codec.md), settled. -/

namespace Sys2Proof.Proofs

open Sys2Proof Sys2Proof.Machine

/-- Settles O21: the Word of an instruction's fields decodes to the instruction, under every map. -/
theorem decodeOfEncode : Obligations.DecodeOfEncode :=
  ⟨fun m _ => exists_encodeWith_decodeWith m, fun _ => exists_encodeWith_decodeWith opcodeMap⟩

/-- Settles O22: a recognised opcode makes the Word decode, and its fields make up all of its bits. -/
theorem encodeOfDecode : Obligations.EncodeOfDecode := by
  rintro m w ⟨op, hop⟩
  obtain ⟨i, hd⟩ := exists_decodeWith_of_number hop
  exact ⟨i, hd, encodeWith_of_decodeWith hd⟩

/-- Settles O18: the six fields do not overlap and they cover the Word. -/
theorem encodeIsSixInserts : Obligations.EncodeIsSixInserts := fun m _ hwf =>
  ⟨_, encodeWith_of_wellFormed m hwf, toNat_encodeFields .., fun _ hperm => insertAll_eq_encodeFields hperm 0#32⟩

/-- Settles O19: the checks of R115 are the only way to fail. -/
theorem encodeFailsExactly : Obligations.EncodeFailsExactly :=
  ⟨fun r => (exists_encodeRecordWith_iff opcodeMap r).trans InstrRecord.wellFormed_iff,
    fun i => (exists_encodeWith_iff opcodeMap i).trans offsetInRange_iff⟩

end Sys2Proof.Proofs

/-! SUPPORT. Facts about the ALU that the statements on 42_alu.md share: what it can return, how the flag is read off the
packed result, and the quotient's magnitude and sign. -/

namespace Sys2Proof.Machine

open Sys2Proof.Claims

/-! ## What the ALU can return (42_alu.md R126, R131 to R133) -/

/-- The model's operation table is the one the statements write out. -/
theorem exactResult_eq_exactOf (op : Opcode) (x y : Int) : exactResult op x y = exactOf op x y := by
  cases op with
  | div => simp only [exactResult, exactOf, truncDiv_eq_tdiv]
  | halt | load | store | add | sub | mul => rfl

/-- The operation of a mnemonic packs the exact integer of the table, or fails because none fits. -/
theorem aluOp_cases (op : Opcode) (x y : Int) :
    (∃ r, exactResult op x y = some r ∧ -2 ^ 31 ≤ r ∧ r ≤ 2 ^ 31 - 1 ∧
      aluOp op x y = { result := bits32 r, flag := signFlag r }) ∨
    ((∀ r, exactResult op x y = some r → ¬ (-2 ^ 31 ≤ r ∧ r ≤ 2 ^ 31 - 1)) ∧ aluOp op x y = aluFailure) := by
  unfold aluOp
  cases exactResult op x y with
  | none => exact .inr ⟨nofun, rfl⟩
  | some r =>
    rcases packResult_cases r with ⟨hlo, hhi, hpack⟩ | ⟨hfit, hpack⟩
    · exact .inl ⟨r, rfl, hlo, hhi, hpack⟩
    · exact .inr ⟨fun _ hr => Option.some.inj hr ▸ hfit, hpack⟩

/-- A number the map assigns to no mnemonic misses the table (42_alu.md R132). -/
theorem aluExecWith_of_miss {m : OpcodeMap} {n : BitVec 6} (h : ∀ op, m.number op ≠ n) (x y : Int) :
    aluExecWith m n x y = aluFailure := by
  rw [aluExecWith, opcodeOf_eq_none.2 h]

/-- On any opcode number the ALU fails or packs an exact integer that fits. -/
theorem aluExecWith_cases (m : OpcodeMap) (n : BitVec 6) (x y : Int) :
    aluExecWith m n x y = aluFailure ∨
      ∃ r, -2 ^ 31 ≤ r ∧ r ≤ 2 ^ 31 - 1 ∧ aluExecWith m n x y = { result := bits32 r, flag := signFlag r } := by
  by_cases h : ∃ op, m.number op = n
  · obtain ⟨op, rfl⟩ := h
    rw [aluExecWith_number]
    rcases aluOp_cases op x y with ⟨r, _, hlo, hhi, hout⟩ | ⟨_, hout⟩
    · exact .inr ⟨r, hlo, hhi, hout⟩
    · exact .inl hout
  · exact .inl (aluExecWith_of_miss (not_exists.1 h) x y)

/-! ## The flag read off the packed result (42_alu.md R128) -/

/-- Bit 31 of a packed integer in range is its sign. -/
theorem getLsbD_31_bits32 {r : Int} (hlo : -2 ^ 31 ≤ r) (hhi : r ≤ 2 ^ 31 - 1) :
    (bits32 r).getLsbD 31 = decide (r < 0) := by
  rw [← BitVec.msb_eq_getLsbD_last, BitVec.msb_eq_toInt, toInt_bits32 hlo hhi]

/-- No integer in range but 0 packs to the Word 0. -/
theorem bits32_ne_zero {r : Int} (hlo : -2 ^ 31 ≤ r) (hhi : r ≤ 2 ^ 31 - 1) (h : r ≠ 0) : bits32 r ≠ 0#32 := fun h0 =>
  h (by rw [← toInt_bits32 hlo hhi, h0, BitVec.toInt_zero])

/-- The sign class of an exact integer in range shows in the 32 bits it packs to. -/
theorem signFlag_cases_bits32 {r : Int} (hlo : -2 ^ 31 ≤ r) (hhi : r ≤ 2 ^ 31 - 1) :
    (signFlag r = flagM ∧ (bits32 r).getLsbD 31 = true) ∨ (signFlag r = flagZ ∧ bits32 r = 0#32) ∨
      (signFlag r = flagP ∧ (bits32 r).getLsbD 31 = false ∧ bits32 r ≠ 0#32) := by
  rw [getLsbD_31_bits32 hlo hhi]
  rcases lt_trichotomy r 0 with hneg | rfl | hpos
  · exact .inl ⟨by rw [signFlag, if_neg hneg.ne, if_pos hneg], decide_eq_true hneg⟩
  · exact .inr (.inl ⟨rfl, rfl⟩)
  · exact .inr (.inr ⟨by rw [signFlag, if_neg hpos.ne', if_neg hpos.not_gt], decide_eq_false hpos.not_gt,
      bits32_ne_zero hlo hhi hpos.ne'⟩)

/-! ## The quotient rounded toward zero (42_alu.md R136) -/

/-- DIV has an exact integer only for a divisor other than 0, and it is then the quotient. -/
theorem exactResult_div_eq_some {x y r : Int} (h : exactResult .div x y = some r) : y ≠ 0 ∧ r = truncDiv x y := by
  rw [exactResult] at h
  split at h
  · cases h
  · next hy => exact ⟨hy, (Option.some.inj h).symm⟩

/-- The magnitude of the quotient is the quotient of the magnitudes. -/
theorem abs_truncDiv (x y : Int) : |truncDiv x y| = |x| / |y| := by
  rw [truncDiv_eq_tdiv, Int.abs_eq_natAbs, Int.natAbs_tdiv, Int.abs_eq_natAbs, Int.abs_eq_natAbs]
  rfl

/-- The quotient is 0 or has the sign of the product of the operands. -/
theorem truncDiv_mul_nonneg (x y : Int) : 0 ≤ truncDiv x y * (x * y) :=
  calc (0 : Int) ≤ |x| * |y| * ((x.natAbs / y.natAbs : Nat) : Int) := by positivity
    _ = x.sign * x * (y.sign * y) * ((x.natAbs / y.natAbs : Nat) : Int) := by simp only [Int.sign_mul_self_eq_abs]
    _ = truncDiv x y * (x * y) := by rw [truncDiv]; ring

end Sys2Proof.Machine

/-! PROOF. The statements on the ALU (42_alu.md), settled. -/

namespace Sys2Proof.Proofs

open Sys2Proof Sys2Proof.Machine

/-- Settles O26, from what the operation of a mnemonic can return. -/
theorem aluIsExactOrV : Obligations.AluIsExactOrV := by
  intro m op x y
  rw [aluExecWith_number, ← exactResult_eq_exactOf]
  rcases aluOp_cases op x y with ⟨r, hr, hlo, hhi, hout⟩ | ⟨hnone, hout⟩ <;> rw [hout]
  · exact .inl ⟨r, hr, hlo, hhi, toInt_bits32 hlo hhi, rfl⟩
  · exact .inr ⟨hnone, rfl, rfl⟩

/-- Settles O27: the ALU fails with V, or it packs an exact integer whose sign the 32 bits show. -/
theorem aluFlagIsSignOfResult : Obligations.AluFlagIsSignOfResult := by
  intro m n x y
  rcases aluExecWith_cases m n x y with hout | ⟨r, hlo, hhi, hout⟩ <;> rw [hout]
  · exact .inl rfl
  · exact .inr (signFlag_cases_bits32 hlo hhi)

/-- Settles O29: the result is the quotient of R136, since packing it lost nothing. -/
theorem divTruncatesTowardZero : Obligations.DivTruncatesTowardZero := by
  intro m x y
  rw [aluExecWith_number]
  rcases aluOp_cases .div x y with ⟨r, hr, hlo, hhi, hout⟩ | ⟨_, hout⟩ <;> rw [hout]
  · obtain ⟨hy, rfl⟩ := exactResult_div_eq_some hr
    intro _
    rw [toInt_bits32 hlo hhi, abs_truncDiv]
    have hpos : 0 < |y| := abs_pos.2 hy
    exact ⟨hy, Int.ediv_mul_le _ hpos.ne', Int.lt_ediv_add_one_mul_self _ hpos, truncDiv_mul_nonneg x y⟩
  · exact fun hflag => absurd rfl hflag

/-- Settles O28: a table miss is the failure outcome. -/
theorem aluTableMissFails : Obligations.AluTableMissFails := by
  intro m n hmiss x y
  rw [aluExecWith_of_miss hmiss]
  exact ⟨rfl, rfl⟩

end Sys2Proof.Proofs

/-! SUPPORT. Facts about the control loop that the statements on 43_control_fsm.md share: where there is no step, what
each phase of a step gives, the program counter after a control transfer, and the control state a step leads to. -/

namespace Sys2Proof.Machine

open Sys2Proof.Claims

/-! ## Where there is no step (43_control_fsm.md R151) -/

section Stopped

variable {s : State}

theorem step_ne_next_of_not_running (h : s.control ≠ .running) (u : State) : step s ≠ .next u := fun hu =>
  h (step_cases hu).1

theorem stepRequest_of_not_running (h : s.control ≠ .running) : stepRequest s = s := by
  rcases stepRequest_cases s with ⟨u, hu, _⟩ | ⟨_, e⟩
  · exact absurd hu (step_ne_next_of_not_running h u)
  · exact e

theorem stepRequest_of_step {u : State} (h : step s = .next u) : stepRequest s = u := by
  rw [stepRequest, h]

/-- What a request under the step permit can do: nothing without the permit, else the request (R172). -/
theorem hostStep_cases (m k : Bool) (s : State) :
    (m = true ∧ k = false ∧ hostStep m k s = s) ∨ ((m = false ∨ k = true) ∧ hostStep m k s = stepRequest s) := by
  cases m with
  | false => exact .inr ⟨.inl rfl, rfl⟩
  | true =>
    cases k with
    | false => exact .inl ⟨rfl, rfl, rfl⟩
    | true => exact .inr ⟨.inr rfl, rfl⟩

theorem hostStep_of_not_running (h : s.control ≠ .running) (m k : Bool) : hostStep m k s = s := by
  rcases hostStep_cases m k s with ⟨_, _, e⟩ | ⟨_, e⟩
  · exact e
  · exact e.trans (stepRequest_of_not_running h)

/-- Outside Running the observer is shown nothing. -/
theorem observed_of_not_running (h : s.control ≠ .running) : observed s = none := by
  unfold observed
  cases hc : s.control with
  | running => exact absurd hc h
  | halted | faulted => rfl

end Stopped

/-! ## The step faults (43_control_fsm.md R152, R153) -/

section StepFaults

variable {s : State}

theorem frontEnd_of_not_valid (h : s.mem.validAddr (s.getReg 15#4) = false) :
    frontEnd s = .fetchOutOfRange (s.getReg 15#4) := by
  simp only [frontEnd, read_of_not_valid h]

theorem frontEnd_of_not_decoded {w : Word} (hw : s.mem.read (s.getReg 15#4) = some w)
    (hd : ∀ i, decodeWith s.params.opcodes w ≠ .ok i) : frontEnd s = .decodeError (s.getReg 15#4) w := by
  cases h : decodeWith s.params.opcodes w with
  | error x => simp only [frontEnd, hw, h]
  | ok i => exact absurd h (hd i)

variable (hr : s.control = .running)
include hr

theorem step_of_not_valid (h : s.mem.validAddr (s.getReg 15#4) = false) :
    step s = .next (s.raise .fetchOutOfRange (s.getReg 15#4) 0#32) := by
  simp only [step, hr, frontEnd_of_not_valid h]

theorem step_of_not_decoded {w : Word} (hw : s.mem.read (s.getReg 15#4) = some w)
    (hd : ∀ i, decodeWith s.params.opcodes w ≠ .ok i) :
    step s = .next (s.raise .decodeError (s.getReg 15#4) w) := by
  simp only [step, hr, frontEnd_of_not_decoded hw hd]

theorem observed_of_not_valid (h : s.mem.validAddr (s.getReg 15#4) = false) : observed s = none := by
  simp only [observed, hr, frontEnd_of_not_valid h]

theorem observed_of_not_decoded {w : Word} (hw : s.mem.read (s.getReg 15#4) = some w)
    (hd : ∀ i, decodeWith s.params.opcodes w ≠ .ok i) : observed s = none := by
  simp only [observed, hr, frontEnd_of_not_decoded hw hd]

end StepFaults

/-- A record shows a step that decoded, and what it shows is the address, the Word and the instruction of that step. -/
theorem decoded_of_observed {s : State} {rec : TraceRecord} (h : observed s = some rec) :
    s.control = .running ∧ rec.pcAddress = s.getReg 15#4 ∧ s.mem.read (s.getReg 15#4) = some rec.rawWord ∧
      decodeWith s.params.opcodes rec.rawWord = .ok rec.decoded := by
  by_cases hr : s.control = .running
  · rcases frontEnd_cases s with ⟨hv, _⟩ | ⟨hv, hd, _⟩ | ⟨hv, i, hd, _⟩
    · exact nomatch (observed_of_not_valid hr hv).symm.trans h
    · exact nomatch (observed_of_not_decoded hr (read_of_valid hv) hd).symm.trans h
    · cases (observed_of_decode hr (read_of_valid hv) hd).symm.trans h
      exact ⟨hr, rfl, read_of_valid hv, hd⟩
  · exact nomatch (observed_of_not_running hr).symm.trans h

/-! ## Start (43_control_fsm.md R170) -/

theorem getReg_setReg_of_ne {i r : RegIdx} (h : r ≠ i) (v : Word) (s : State) :
    (s.setReg i v).getReg r = s.getReg r := by
  rw [getReg_setReg, if_neg h]
  split
  · next h0 => rw [h0, getReg_zero]
  · rfl

/-- Writing to a register what it holds changes nothing. -/
theorem setReg_getReg (s : State) (i : RegIdx) : s.setReg i (s.getReg i) = s := by
  by_cases h : i = 0#4 <;> simp [State.setReg, State.getReg, h]

/-- An accepted start. -/
theorem hostStart_of_not_faulted {s : State} (h : s.control ≠ .faulted) (a : Word) :
    hostStart a s = (s.setReg 15#4 a).setControl .running := by
  rcases hostStart_cases a s with ⟨hf, _⟩ | ⟨_, e⟩
  · exact absurd hf h
  · exact e

/-- A start in Faulted is refused (R169). -/
theorem hostStart_of_faulted {s : State} (h : s.control = .faulted) (a : Word) : hostStart a s = s := by
  rcases hostStart_cases a s with ⟨_, e⟩ | ⟨hf, _⟩
  · exact e
  · exact absurd h hf

/-! ## Phases 4 to 6 (43_control_fsm.md R156 to R164) -/

theorem sameMemory_of_eq {s u : State} (hmem : u.mem = s.mem) (hparams : u.params = s.params) : SameMemory s u :=
  ⟨by rw [hmem], hparams, fun _ => by rw [hmem]⟩

/-- The ALU returns exactly one of the flags M, Z, P, V, on any opcode number. -/
theorem aluExecWith_flag_cases (m : OpcodeMap) (n : BitVec 6) (x y : Int) :
    (aluExecWith m n x y).flag = flagM ∨ (aluExecWith m n x y).flag = flagZ ∨
      (aluExecWith m n x y).flag = flagP ∨ (aluExecWith m n x y).flag = flagV := by
  rcases aluExecWith_cases m n x y with e | ⟨r, hlo, hhi, e⟩ <;> rw [e]
  · exact .inr (.inr (.inr rfl))
  · rcases signFlag_cases_bits32 hlo hhi with ⟨hf, _⟩ | ⟨hf, _⟩ | ⟨hf, _⟩
    · exact .inl hf
    · exact .inr (.inl hf)
    · exact .inr (.inr (.inl hf))

/-- The result of a mnemonic's ALU operation is the one the statements write out. -/
theorem aluOp_result (op : Opcode) (x y : Int) : (aluOp op x y).result = resultWord (exactOf op x y) := by
  rw [← exactResult_eq_exactOf]
  rcases aluOp_cases op x y with ⟨r, hr, hlo, hhi, e⟩ | ⟨hnone, e⟩ <;> rw [e]
  · rw [hr, resultWord, if_pos ⟨hlo, hhi⟩]
  · cases hr : exactResult op x y with
    | none => rfl
    | some r => rw [resultWord, if_neg (hnone r hr)]; rfl

theorem aluCall_result (op : Opcode) (a b : RegIdx) (off : Int) (s : State) :
    (aluCall op a b off s).result = resultWord (exactOf op (opOne a s) (opTwo b off s)) := by
  rw [aluCall_eq]
  exact aluOp_result ..

/-- LOAD and STORE take the effective address from the ALU (45_load_store.md R189). -/
theorem aluCall_result_of_access {op : Opcode} (h : op = .load ∨ op = .store) (a b : RegIdx) (off : Int) (s : State) :
    (aluCall op a b off s).result = resultWord (addressSum a b off s) := by
  rw [aluCall_result]
  rcases h with rfl | rfl <;> rfl

/-- The generic write to register 15 transfers control to one past the result. -/
theorem getReg_genericWrite_pc (o : AluOut) (s : State) :
    (genericWrite 15#4 o s).getReg 15#4 = o.result + 1#32 := by
  simp [getReg_genericWrite]

/-- The program counter after an executed instruction whose target it is (R164). -/
theorem getReg_executed_pc {i : Instr} (ht : i.rt = 15#4) (s : State) :
    (executed i s).getReg 15#4 =
      if i.opcode = .load ∧ s.mem.validAddr (aluCall i.opcode i.rs1 i.rs2 i.off s).result = true then
        s.mem.peek (aluCall i.opcode i.rs1 i.rs2 i.off s).result.toNat
      else (aluCall i.opcode i.rs1 i.rs2 i.off s).result + 1#32 := by
  cases i with
  | load p t a b off =>
    obtain rfl : t = 15#4 := ht
    simp only [executed, Instr.opcode, Instr.rs1, Instr.rs2, Instr.off]
    rcases loadEffect_cases 15#4 (aluCall .load a b off s).result (genericWrite 15#4 (aluCall .load a b off s) s) with
      ⟨hv, e⟩ | ⟨hv, e⟩ <;> rw [e] <;> rw [genericWrite_mem] at hv
    · simp [hv, getReg_setReg]
    · simp [hv, getReg_genericWrite_pc]
  | store p t a b off =>
    obtain rfl : t = 15#4 := ht
    exact (getReg_storeEffect ..).trans (getReg_genericWrite_pc ..)
  | halt p t | add p t | sub p t | mul p t | div p t =>
    obtain rfl : t = 15#4 := ht
    exact getReg_genericWrite_pc ..

/-! ## The control state after a step (43_control_fsm.md R167) -/

/-- What a step that answers a next state did, with the instruction it executed named. -/
theorem step_executes_cases {s u : State} (h : step s = .next u) :
    (s.mem.validAddr (s.getReg 15#4) = false ∧ u = s.raise .fetchOutOfRange (s.getReg 15#4) 0#32) ∨
    (∃ w, s.mem.read (s.getReg 15#4) = some w ∧ (∀ i, decodeWith s.params.opcodes w ≠ .ok i) ∧
      u = s.raise .decodeError (s.getReg 15#4) w) ∨
    (∃ i, Executes s i ∧ u = executed i s) ∨ u = skip s := by
  obtain ⟨hr, ⟨hv, rfl⟩ | ⟨hv, hd, rfl⟩ | ⟨hv, i, hd, rfl⟩⟩ := step_cases h
  · exact .inl ⟨hv, rfl⟩
  · exact .inr (.inl ⟨_, read_of_valid hv, hd, rfl⟩)
  · rcases gated_cases i.pred s (executed i s) with ⟨hp, e⟩ | ⟨_, e⟩
    · exact .inr (.inr (.inl ⟨i, ⟨hr, _, read_of_valid hv, hd, hp⟩, e⟩))
    · exact .inr (.inr (.inr e))

section ControlAfter

variable {s u : State}

/-- In Running an executed instruction halts exactly when it is HALT. -/
theorem executed_control_eq_halted_iff (hr : s.control = .running) (i : Instr) :
    (executed i s).control = .halted ↔ i.opcode = .halt := by
  rcases executed_control_cases i s with ⟨hop, hc, _⟩ | ⟨hop, _, hc, _⟩ | ⟨hop, _, hc, _⟩
  · simp [hc, hop]
  · rcases hop with hop | hop <;> simp [hc, hop]
  · simp [hc, hr, hop]

/-- In Running an executed instruction faults exactly when it accesses memory at an address that is not valid. -/
theorem executed_control_eq_faulted_iff (hr : s.control = .running) (i : Instr) :
    (executed i s).control = .faulted ↔ (i.opcode = .load ∨ i.opcode = .store) ∧
      s.mem.validAddr (resultWord (addressSum i.rs1 i.rs2 i.off s)) = false := by
  rcases executed_control_cases i s with ⟨hop, hc, _⟩ | ⟨hop, hv, hc, _⟩ | ⟨_, hv, hc, _⟩
  · simp [hc, hop]
  · rw [aluCall_result_of_access hop] at hv
    exact ⟨fun _ => ⟨hop, hv⟩, fun _ => hc⟩
  · rw [hc, hr]
    refine ⟨nofun, fun ⟨hop, hinvalid⟩ => ?_⟩
    have hvalid := hv hop
    rw [aluCall_result_of_access hop, hinvalid] at hvalid
    cases hvalid

variable (hu : step s = .next u)
include hu

theorem step_control_eq_halted_iff : u.control = .halted ↔ ∃ i, Executes s i ∧ i.opcode = .halt := by
  have hr : s.control = .running := (step_cases hu).1
  constructor
  · intro hc
    rcases step_executes_cases hu with ⟨_, rfl⟩ | ⟨_, _, _, rfl⟩ | ⟨i, hex, rfl⟩ | rfl
    · exact nomatch hc
    · exact nomatch hc
    · exact ⟨i, hex, (executed_control_eq_halted_iff hr i).1 hc⟩
    · exact nomatch ((skip_control s).trans hr).symm.trans hc
  · rintro ⟨i, hex, hop⟩
    cases hu.symm.trans (step_of_executes hex)
    exact (executed_control_eq_halted_iff hr i).2 hop

theorem step_control_eq_faulted_iff :
    u.control = .faulted ↔
      s.mem.validAddr (s.getReg 15#4) = false ∨
      (∃ w, s.mem.read (s.getReg 15#4) = some w ∧ ∀ i, decodeWith s.params.opcodes w ≠ .ok i) ∨
      (∃ i, Executes s i ∧ (i.opcode = .load ∨ i.opcode = .store) ∧
        s.mem.validAddr (resultWord (addressSum i.rs1 i.rs2 i.off s)) = false) := by
  have hr : s.control = .running := (step_cases hu).1
  constructor
  · intro hc
    rcases step_executes_cases hu with ⟨hv, _⟩ | ⟨w, hw, hd, _⟩ | ⟨i, hex, rfl⟩ | rfl
    · exact .inl hv
    · exact .inr (.inl ⟨w, hw, hd⟩)
    · exact .inr (.inr ⟨i, hex, (executed_control_eq_faulted_iff hr i).1 hc⟩)
    · exact nomatch ((skip_control s).trans hr).symm.trans hc
  · rintro (hv | ⟨w, hw, hd⟩ | ⟨i, hex, hfault⟩)
    · cases hu.symm.trans (step_of_not_valid hr hv)
      rfl
    · cases hu.symm.trans (step_of_not_decoded hr hw hd)
      rfl
    · cases hu.symm.trans (step_of_executes hex)
      exact (executed_control_eq_faulted_iff hr i).2 hfault

end ControlAfter

end Sys2Proof.Machine

/-! PROOF. The statements on the control loop (43_control_fsm.md), settled. -/

namespace Sys2Proof.Proofs

open Sys2Proof Sys2Proof.Machine Sys2Proof.Claims

/-- Settles O9, by induction on the number of requests. -/
theorem stoppedMachineStaysPut : Obligations.StoppedMachineStaysPut := by
  intro n s h
  induction n with
  | zero => exact ⟨rfl, rfl⟩
  | succ n ih =>
    obtain ⟨hrun, htrace⟩ := ih
    constructor
    · rw [runSteps, stepRequest_of_not_running h, hrun]
    · rw [traceOf, observed_of_not_running h, stepRequest_of_not_running h, htrace]
      rfl

/-- Settles O37, from what the skip path leaves. -/
theorem skippedInstructionOnlyAdvancesPc : Obligations.SkippedInstructionOnlyAdvancesPc := by
  intro i s h
  exact ⟨skip s, exec_skip h, getReg_skip s, skip_cond s, skip_control s, skip_fault s,
    sameMemory_of_eq (skip_mem s) (skip_params s)⟩

/-- Settles O38: phase 6 leaves the flag that phase 5 wrote. -/
theorem executedInstructionReplacesCond : Obligations.ExecutedInstructionReplacesCond := by
  intro i s h
  refine ⟨executed i s, exec_pass h, executed_cond i s, ?_⟩
  rw [executed_cond]
  exact aluExecWith_flag_cases ..

/-- Settles O39: only LOAD at a valid address overwrites register 15 after its advance. -/
theorem controlTransferTable : Obligations.ControlTransferTable := by
  intro i s h ht
  refine ⟨executed i s, exec_pass h, ?_⟩
  rw [getReg_executed_pc ht, aluCall_result]
  by_cases hop : i.opcode = .load
  · rw [hop]
  · rw [if_neg fun hc => hop hc.1, if_neg fun hc => hop hc.1]

/-- Settles O44: a step ends Halted or Faulted exactly by what it did, since there is only one step. -/
theorem controlTransitions : Obligations.ControlTransitions :=
  ⟨fun _ => rfl, fun a _ h => by rw [hostStart_of_not_faulted h, setControl_control],
    fun a _ h => hostStart_of_faulted h a,
    fun _ _ hu => ⟨(step_cases hu).1, step_control_eq_halted_iff hu, step_control_eq_faulted_iff hu⟩⟩

/-- Settles O1: what decodes is well-formed, and the step is its meaning. -/
theorem stepRunsDecodedInstruction : Obligations.StepRunsDecodedInstruction := fun _ _ _ hr hw hd =>
  ⟨decodeWith_wellFormed hd, step_of_decode hr hw hd⟩

/-- Settles O5: a permitted request is the step where there is one, and there is one only in Running. -/
theorem noStepOutsideRunning : Obligations.NoStepOutsideRunning := fun _ =>
  ⟨fun h => ⟨step_ne_next_of_not_running h, hostStep_of_not_running h⟩, rfl,
    fun _ hu => ⟨stepRequest_of_step hu, stepRequest_of_step hu, stepRequest_of_step hu⟩⟩

/-- Settles O6: a start is two writes, and after reset both write what is there. -/
theorem startSetsControlAndPcOnly : Obligations.StartSetsControlAndPcOnly := by
  refine ⟨fun a s h => ?_, fun s => ?_⟩
  · rw [hostStart_of_not_faulted h]
    have hpc : ((s.setReg 15#4 a).setControl .running).getReg 15#4 = a := by
      rw [getReg_setControl, getReg_setReg, if_neg (by decide), if_pos rfl]
    have hmem : ((s.setReg 15#4 a).setControl .running).mem = s.mem := by rw [setControl_mem, setReg_mem]
    refine ⟨rfl, hpc, fun r hr => getReg_setReg_of_ne hr a s, setReg_cond .., setReg_fault .., hmem,
      setReg_params .., fun hv => ?_⟩
    have hfetch := step_of_not_valid (s := (s.setReg 15#4 a).setControl .running) rfl (by rwa [hpc, hmem])
    rwa [hpc] at hfetch
  · have hpc : (hostReset s).getReg 15#4 = s.params.startAddr := by rw [getReg_hostReset, if_pos rfl]
    rw [hostStart_of_not_faulted (by exact nofun), ← hpc, setReg_getReg]
    rfl

/-- Settles O7, from what each transaction of the host can do. -/
theorem faultedLeftOnlyByReset : Obligations.FaultedLeftOnlyByReset := by
  intro s h
  have hnot : s.control ≠ .running := by rw [h]; exact nofun
  refine ⟨hostStart_of_faulted h, fun c hc => ?_⟩
  cases c with
  | reset => exact absurd rfl hc
  | start a => rw [hostApply, hostStart_of_faulted h]; exact ⟨h, rfl⟩
  | load a w =>
    rcases hostLoad_cases a w s with ⟨_, e⟩ | ⟨_, _, e⟩ <;> rw [hostApply, e] <;> exact ⟨h, rfl⟩
  | step m k => rw [hostApply, hostStep_of_not_running hnot]; exact ⟨h, rfl⟩

/-- Settles O23, from the range of a signed 32-bit reading. -/
theorem operandsFit33Bits : Obligations.OperandsFit33Bits := by
  intro s a b off hlo hhi
  have signedRange (r : RegIdx) : -2 ^ 31 ≤ (s.getReg r).toInt ∧ (s.getReg r).toInt < 2 ^ 31 :=
    ⟨BitVec.le_toInt _, BitVec.toInt_lt⟩
  obtain ⟨ha, ha'⟩ := signedRange a
  obtain ⟨hb, hb'⟩ := signedRange b
  refine ⟨rfl, rfl, ?_⟩
  simp only [operand1, operand2, sint32]
  omega

/-- Settles O41: a raised fault is the same state but for the control state and the fault record. -/
theorem stepFaultsArePrecise : Obligations.StepFaultsArePrecise := fun _ hr =>
  ⟨fun hv => ⟨step_of_not_valid hr hv, observed_of_not_valid hr hv⟩,
    fun _ hw hd => ⟨step_of_not_decoded hr hw hd, observed_of_not_decoded hr hw hd⟩⟩

/-- Settles O42: a record shows a step that decoded, and every such step shows one. -/
theorem observerSeesDecodedSteps : Obligations.ObserverSeesDecodedSteps := by
  refine fun s rec => ⟨decoded_of_observed, fun ⟨hr, hpc, hw, hd⟩ => ?_⟩
  rw [observed_of_decode hr hw hd, ← hpc]

end Sys2Proof.Proofs

/-! SUPPORT. What the statements on 44_arithmetic.md share: the Words a mask on the opcode field selects, the flag of an
ALU call as the statements write it out, and the whole effect of phase 5. -/

namespace Sys2Proof

open Sys2Proof.Machine Sys2Proof.Claims

/-! ## The Words with one opcode (30_encoding.md R71, R77) -/

/-- The Word with an opcode number in its opcode field and 0 in every other field. -/
def opcodeWord (n : BitVec 6) : Word := n.zeroExtend 32 <<< 26

/-- The mask `0xFC000000` keeps the opcode field and clears the other five. -/
theorem and_opcodeMask (w : Word) : w &&& 0xFC000000#32 = opcodeWord (w.extractLsb' 26 6) := by
  apply BitVec.eq_of_getLsbD_eq
  intro j hj
  interval_cases j <;> simp [opcodeWord]

theorem slice_opcodeWord (n : BitVec 6) : (opcodeWord n).extractLsb' 26 6 = n := by
  apply BitVec.eq_of_getLsbD_eq
  intro j hj
  interval_cases j <;> simp [opcodeWord]

/-- Masking the other fields leaves the Word of `n` exactly when the opcode field holds `n`. -/
theorem and_opcodeMask_eq_iff {w : Word} {n : BitVec 6} :
    w &&& 0xFC000000#32 = opcodeWord n ↔ w.extractLsb' 26 6 = n := by
  rw [and_opcodeMask]
  exact (Function.LeftInverse.injective slice_opcodeWord).eq_iff

/-- A Word whose opcode field is a mnemonic's number decodes to that mnemonic with the fields of the format. -/
theorem decodeWith_of_number {m : OpcodeMap} {w : Word} {op : Opcode} (h : w.extractLsb' 26 6 = m.number op) :
    decodeWith m w = .ok (Instr.ofFields op (w.extractLsb' 22 4) (w.extractLsb' 18 4) (w.extractLsb' 14 4)
      (w.extractLsb' 10 4) (w.extractLsb' 0 10).toInt) := by
  rw [decodeWith_eq, h, opcodeOf_number]

/-- A mnemonic's Words are those that the mask on the opcode field takes to the Word of its number. -/
theorem selectedBy_opcodeWord (op : Opcode) : SelectedBy (opcodeWord (opcodeMap.number op)) (Instr.ofFields op) := by
  refine ⟨fun w hw => decodeWith_of_number (and_opcodeMask_eq_iff.1 hw), fun w p t a b off hd => ?_⟩
  obtain ⟨hop, -⟩ := decodeWith_eq_ok hd
  rw [ofFields_opcode] at hop
  exact and_opcodeMask_eq_iff.2 hop.symm

namespace Machine

/-! ## Phase 5 with the ALU's result (42_alu.md R128, 43_control_fsm.md R159 to R161) -/

/-- The flag of an exact integer that fits is its sign class. -/
theorem resultFlag_of_fits {r : Int} (h : -2 ^ 31 ≤ r ∧ r ≤ 2 ^ 31 - 1) : resultFlag (some r) = signFlag r := if_pos h

/-- The flag of a mnemonic's ALU operation is the one the statements write out. -/
theorem aluOp_flag (op : Opcode) (x y : Int) : (aluOp op x y).flag = resultFlag (exactOf op x y) := by
  rw [← exactResult_eq_exactOf]
  rcases aluOp_cases op x y with ⟨r, hr, hlo, hhi, e⟩ | ⟨hnone, e⟩ <;> rw [e]
  · rw [hr, resultFlag_of_fits ⟨hlo, hhi⟩]
  · cases hr : exactResult op x y with
    | none => rfl
    | some r => rw [resultFlag, if_neg (hnone r hr)]; rfl

theorem aluCall_flag (op : Opcode) (a b : RegIdx) (off : Int) (s : State) :
    (aluCall op a b off s).flag = resultFlag (exactOf op (opOne a s) (opTwo b off s)) := by
  rw [aluCall_eq]
  exact aluOp_flag ..

/-- Phase 5 with a mnemonic's ALU call is the effect of its exact integer, and changes nothing else (R184). -/
theorem arithmeticEffect_genericWrite (op : Opcode) (t a b : RegIdx) (off : Int) (s : State) :
    ArithmeticEffect t (exactOf op (opOne a s) (opTwo b off s)) s (genericWrite t (aluCall op a b off s) s) := by
  refine ⟨fun r => ?_, ?_, genericWrite_control .., genericWrite_fault ..,
    sameMemory_of_eq (genericWrite_mem ..) (genericWrite_params ..)⟩
  · rw [getReg_genericWrite, aluCall_result]
    rfl
  · rw [genericWrite_cond, aluCall_flag]

/-- The four mnemonics whose whole meaning is phase 5 (44_arithmetic.md R184). -/
def arithmeticOpcodes : List Opcode := [.add, .sub, .mul, .div]

theorem executed_arithmetic {op : Opcode} (h : op ∈ arithmeticOpcodes) (p : Flags) (t a b : RegIdx) (off : Int)
    (s : State) : executed (Instr.ofFields op p t a b off) s = genericWrite t (aluCall op a b off s) s := by
  cases op with
  | add | sub | mul | div => rfl
  | halt | load | store => exact absurd h (by decide)

/-- An arithmetic instruction whose predicate test passes has the effect of its row of the operation table. -/
theorem exec_arithmetic {op : Opcode} (h : op ∈ arithmeticOpcodes) (p : Flags) (t a b : RegIdx) (off : Int)
    (s : State) (hp : s.cond &&& p ≠ 0#4) :
    ∃ u, exec (Instr.ofFields op p t a b off) s = .next u ∧
      ArithmeticEffect t (exactOf op (opOne a s) (opTwo b off s)) s u := by
  have hexec := exec_pass (i := Instr.ofFields op p t a b off) (s := s) (by rwa [ofFields_pred])
  rw [executed_arithmetic h] at hexec
  exact ⟨_, hexec, arithmeticEffect_genericWrite ..⟩

end Machine

end Sys2Proof

/-! PROOF. The statements on the arithmetic instructions (44_arithmetic.md), settled: each is its row of the opcode map
and of the operation table. -/

namespace Sys2Proof.Proofs

open Sys2Proof Sys2Proof.Machine

/-- Settles O30: opcode number 3, and the exact sum. -/
theorem addExecutes : Obligations.AddExecutes := ⟨selectedBy_opcodeWord .add, exec_arithmetic (op := .add) (by decide)⟩

/-- Settles O31: opcode number 5, and the exact difference. -/
theorem subExecutes : Obligations.SubExecutes := ⟨selectedBy_opcodeWord .sub, exec_arithmetic (op := .sub) (by decide)⟩

/-- Settles O32: opcode number 6, and the exact product. -/
theorem mulExecutes : Obligations.MulExecutes := ⟨selectedBy_opcodeWord .mul, exec_arithmetic (op := .mul) (by decide)⟩

/-- Settles O33: opcode number 7, and the quotient toward zero where the divisor is not 0. -/
theorem divExecutes : Obligations.DivExecutes := ⟨selectedBy_opcodeWord .div, exec_arithmetic (op := .div) (by decide)⟩

end Sys2Proof.Proofs

/-! SUPPORT. What the statements on 45_load_store.md share: the executed LOAD and STORE by the validity of their address,
the target after its second write or at the store, and the state that a fault of either leaves. -/

namespace Sys2Proof.Machine

open Sys2Proof.Claims

section LoadStore

variable {s : State} {t a b : RegIdx} {off : Int}

/-! ## Phase 6 by the validity of the address (45_load_store.md R190, R191) -/

theorem executed_load_of_valid (hv : s.mem.validAddr (resultWord (addressSum a b off s)) = true) (p : Flags) :
    executed (.load p t a b off) s = (genericWrite t (aluCall .load a b off s) s).setReg t
      (s.mem.peek (resultWord (addressSum a b off s)).toNat) := by
  simp only [executed, loadEffect, aluCall_result_of_access (.inl rfl), genericWrite_mem, read_of_valid hv]

theorem executed_load_of_not_valid (hv : s.mem.validAddr (resultWord (addressSum a b off s)) = false) (p : Flags) :
    executed (.load p t a b off) s = (genericWrite t (aluCall .load a b off s) s).raise .loadOutOfRange
      (resultWord (addressSum a b off s)) 0#32 := by
  simp only [executed, loadEffect, aluCall_result_of_access (.inl rfl), genericWrite_mem, read_of_not_valid hv]

theorem executed_store_of_valid (hv : s.mem.validAddr (resultWord (addressSum a b off s)) = true) (p : Flags) :
    executed (.store p t a b off) s = (genericWrite t (aluCall .store a b off s) s).setMem
      (s.mem.poke (resultWord (addressSum a b off s)).toNat
        ((genericWrite t (aluCall .store a b off s) s).getReg t)) := by
  simp only [executed, storeEffect, aluCall_result_of_access (.inr rfl), genericWrite_mem, write_of_valid hv]

theorem executed_store_of_not_valid (hv : s.mem.validAddr (resultWord (addressSum a b off s)) = false) (p : Flags) :
    executed (.store p t a b off) s = (genericWrite t (aluCall .store a b off s) s).raise .storeOutOfRange
      (resultWord (addressSum a b off s)) 0#32 := by
  simp only [executed, storeEffect, aluCall_result_of_access (.inr rfl), genericWrite_mem, write_of_not_valid hv]

end LoadStore

/-! ## The target and the fault after phase 5 (43_control_fsm.md R159, 60_exceptions.md R234) -/

/-- What the target reads after phase 5: register 15 is advanced past the result, register 0 reads 0. -/
theorem regAfterWrite_target (t : RegIdx) (res : Word) (s : State) :
    regAfterWrite t res s t = if t = 0#4 then 0#32 else if t = 15#4 then res + 1#32 else res := by
  by_cases h15 : t = 15#4 <;> simp [regAfterWrite, h15]

section AfterPhaseFive

variable {t : RegIdx} {e : Option Int} {s g : State} (h : ArithmeticEffect t e s g)
include h

/-- A second write to the target replaces what phase 5 left in it, the advance of register 15 included. -/
theorem getReg_setReg_target (w : Word) (r : RegIdx) :
    (g.setReg t w).getReg r =
      if r = 0#4 then 0#32 else if r = t then w else if r = 15#4 then s.getReg 15#4 + 1#32 else s.getReg r := by
  obtain ⟨hreg, -⟩ := h
  rw [getReg_setReg, hreg, regAfterWrite]
  by_cases h0 : r = 0#4
  · rw [if_pos h0, if_pos h0]
  by_cases ht : r = t
  · rw [if_pos ht, if_pos ht]
  by_cases h15 : r = 15#4
  · subst h15
    simp [ht, Ne.symm ht]
  · simp only [h0, ht, h15, if_false]

/-- A second write to the target touches registers only; `cond` stays the flag of phase 5. -/
theorem setReg_target_after_phaseFive (w : Word) :
    (∀ r, (g.setReg t w).getReg r =
      if r = 0#4 then 0#32 else if r = t then w else if r = 15#4 then s.getReg 15#4 + 1#32 else s.getReg r) ∧
      (g.setReg t w).cond = resultFlag e ∧ (g.setReg t w).control = s.control ∧
      (g.setReg t w).fault = s.fault ∧ SameMemory s (g.setReg t w) := by
  have hregs := getReg_setReg_target h w
  obtain ⟨-, hcond, hcontrol, hfault, hmem⟩ := h
  rw [setReg_cond, setReg_control, setReg_fault, SameMemory, setReg_mem, setReg_params]
  exact ⟨hregs, hcond, hcontrol, hfault, hmem⟩

/-- A fault raised after phase 5 leaves its writes, and all of memory, as they are. -/
theorem raise_after_phaseFive (c : FaultCause) (addr word : Word) :
    (∀ r, (g.raise c addr word).getReg r = regAfterWrite t (resultWord e) s r) ∧
      (g.raise c addr word).cond = resultFlag e ∧ (g.raise c addr word).control = .faulted ∧
      (g.raise c addr word).fault = { cause := c, address := addr, word := word } ∧
      SameMemory s (g.raise c addr word) := by
  obtain ⟨hreg, hcond, -, -, hmem⟩ := h
  exact ⟨hreg, hcond, rfl, rfl, hmem⟩

end AfterPhaseFive

end Sys2Proof.Machine

/-! PROOF. The statements on LOAD and STORE (45_load_store.md), settled: phase 5 has the effect of the exact address, and
phase 6 is the access or its fault. -/

namespace Sys2Proof.Proofs

open Sys2Proof Sys2Proof.Machine Sys2Proof.Claims

/-- Settles O34: at a valid address the target is written a second time, with the Word read; at any other the fault is
raised on the state that phase 5 left. -/
theorem loadExecutes : Obligations.LoadExecutes := by
  refine ⟨selectedBy_opcodeWord .load, fun p t a b off s hp hv => ?_, fun p t a b off s hp hv => ?_⟩
  · refine ⟨_, exec_pass hp, ?_⟩
    rw [executed_load_of_valid hv]
    exact setReg_target_after_phaseFive (arithmeticEffect_genericWrite .load t a b off s) _
  · refine ⟨_, exec_pass hp, ?_⟩
    rw [executed_load_of_not_valid hv]
    exact raise_after_phaseFive (arithmeticEffect_genericWrite .load t a b off s) ..

/-- Settles O35: at a valid address the Word stored is what the target reads after phase 5; at any other the fault is
raised on the state that phase 5 left. -/
theorem storeExecutes : Obligations.StoreExecutes := by
  refine ⟨selectedBy_opcodeWord .store, aluCall_result_of_access (.inr rfl), fun p t a b off s hp hv => ?_,
    fun p t a b off s hp hv => ?_⟩ <;> rw [aluCall_result_of_access (.inr rfl)] at hv ⊢
  · obtain ⟨hreg, hcond, -⟩ := arithmeticEffect_genericWrite .store t a b off s
    refine ⟨_, exec_pass hp, ?_⟩
    rw [executed_store_of_valid hv]
    refine ⟨hreg, hcond, by simp, by simp, by simp, by simp, ?_, fun x hx => ?_⟩
    · rw [setMem_mem, peek_poke, if_pos rfl, hreg]
      exact regAfterWrite_target ..
    · rw [setMem_mem, peek_poke, if_neg hx]
  · refine ⟨_, exec_pass hp, ?_⟩
    rw [executed_store_of_not_valid hv]
    exact raise_after_phaseFive (arithmeticEffect_genericWrite .store t a b off s) ..

end Sys2Proof.Proofs

/-! SUPPORT. The executed HALT: its row of the operation table is the constant 0, and phase 6 only sets the control
state. -/

namespace Sys2Proof.Machine

open Sys2Proof.Claims

/-- The ALU call of HALT is (0, Z): its row of the operation table reads neither operand (42_alu.md R127). -/
theorem aluCall_halt (a b : RegIdx) (off : Int) (s : State) :
    aluCall .halt a b off s = { result := 0#32, flag := 2#4 } := by
  rw [aluCall_eq]
  rfl

/-- HALT's outcome, executed or skipped, with neither its sources nor its offset in it (46_halt.md R200). -/
theorem exec_halt (p : Flags) (t a b : RegIdx) (off : Int) (s : State) :
    exec (.halt p t a b off) s =
      .next (gated p s ((genericWrite t { result := 0#32, flag := 2#4 } s).setControl .halted)) := by
  rw [← aluCall_halt a b off s]
  rfl

/-- A control state set after phase 5 leaves its writes, the fault record and all of memory as they are. -/
theorem setControl_after_phaseFive {t : RegIdx} {e : Option Int} {s g : State} (h : ArithmeticEffect t e s g)
    (c : Control) :
    (∀ r, (g.setControl c).getReg r = regAfterWrite t (resultWord e) s r) ∧ (g.setControl c).cond = resultFlag e ∧
      (g.setControl c).control = c ∧ (g.setControl c).fault = s.fault ∧ SameMemory s (g.setControl c) := by
  obtain ⟨hreg, hcond, -, hfault, hmem⟩ := h
  exact ⟨hreg, hcond, rfl, hfault, hmem⟩

end Sys2Proof.Machine

/-! PROOF. The statement on HALT (46_halt.md), settled. -/

namespace Sys2Proof.Proofs

open Sys2Proof Sys2Proof.Machine Sys2Proof.Claims

/-- Settles O36: executed, phase 5 has the effect of the exact integer 0 and phase 6 sets Halted; skipped, HALT is like
any other instruction. -/
theorem haltExecutes : Obligations.HaltExecutes := by
  refine ⟨selectedBy_opcodeWord .halt, fun p t a b off s hp => ?_, fun p t a b a' b' off off' s => ?_,
    fun p t a b off s hp => skippedInstructionOnlyAdvancesPc (.halt p t a b off) s hp⟩
  · exact ⟨_, exec_pass hp, setControl_after_phaseFive (arithmeticEffect_genericWrite .halt t a b off s) .halted⟩
  · rw [exec_halt, exec_halt]

end Sys2Proof.Proofs

/-! SUPPORT. What the statements on 48_interfaces.md share: the ports of the ALU and of the decoder in the terms of the
exact model, the trace one record at a time, and what each transaction and each read of the host does. -/

namespace Sys2Proof.Machine

/-! ## The ALU's ports (48_interfaces.md R211) -/

/-- The wire of the first source carries the exact first operand. -/
theorem toInt_aluIn1 (a : RegIdx) (s : State) : (aluIn1 a s).toInt = operand1 a s :=
  BitVec.toInt_signExtend_of_le (by decide)

/-- The 33-bit sum does not wrap, so the wire of the second source carries the exact second operand. -/
theorem toInt_aluIn2 (b : RegIdx) (off : BitVec 10) (s : State) : (aluIn2 b off s).toInt = operand2 b off.toInt s := by
  have hlt : off.toInt < 2 ^ 9 := BitVec.toInt_lt
  obtain ⟨-, -, -, -, hlo, hhi⟩ := Proofs.operandsFit33Bits s b b off.toInt (BitVec.le_toInt off) (by omega)
  rw [aluIn2, BitVec.toInt_add, BitVec.toInt_signExtend_of_le (by decide), BitVec.toInt_signExtend_of_le (by decide)]
  exact Int.bmod_eq_of_le (le_trans (by norm_num) hlo) (lt_of_le_of_lt hhi (by norm_num))

/-! ## The decoder's port (48_interfaces.md R207) -/

/-- The decoder's outputs as slices of the Word. -/
theorem decoderPort_eq (m : OpcodeMap) (w : Word) :
    decoderPort m w =
      { valid := (opcodeOf m (w.extractLsb' 26 6)).isSome, opcode := w.extractLsb' 26 6,
        predicate := w.extractLsb' 22 4, regTarget := w.extractLsb' 18 4, regSrc1 := w.extractLsb' 14 4,
        regSrc2 := w.extractLsb' 10 4, offset := w.extractLsb' 0 10 } := by
  simp only [decoderPort, opcodeField_extract, predicateField_extract, regTargetField_extract, regSrc1Field_extract,
    regSrc2Field_extract, offsetField_extractSigned, BitVec.ofNat_toNat, BitVec.setWidth_eq, BitVec.ofInt_toInt]

/-- A Word decodes exactly when its opcode field holds a mnemonic's number. -/
theorem exists_decodeWith_iff (m : OpcodeMap) (w : Word) :
    (∃ i, decodeWith m w = .ok i) ↔ (opcodeOf m (w.extractLsb' 26 6)).isSome = true := by
  rw [Option.isSome_iff_ne_none, ne_eq, ← decodeWith_ne_ok_iff]
  simp only [ne_eq, not_forall, not_not]

/-! ## The trace (48_interfaces.md R220) -/

/-- The records of `n` requests are those presented by the states after 0 to `n - 1` of them. -/
theorem traceOf_eq_filterMap (n : Nat) (s : State) :
    traceOf n s = (List.range n).filterMap fun k => observed (runSteps k s) := by
  induction n generalizing s with
  | zero => rfl
  | succ n ih =>
    rw [traceOf, ih, List.range_succ_eq_map, List.filterMap_cons, List.filterMap_map, runSteps]
    cases observed s with
    | none => rfl
    | some rec => rfl

/-! ## The host's write of memory (48_interfaces.md R226) -/

/-- A load during a run, or at an address that is not valid, is refused. -/
theorem hostLoad_of_refused {a : Word} {s : State} (h : s.control = .running ∨ s.mem.validAddr a = false) (w : Word) :
    hostLoad a w s = s := by
  rcases hostLoad_cases a w s with ⟨_, e⟩ | ⟨hstopped, hv, _⟩
  · exact e
  · rcases h with hr | hinvalid
    · exact absurd hr hstopped
    · exact absurd (hv.symm.trans hinvalid) (by decide)

/-- An accepted load sets one cell. -/
theorem hostLoad_of_accepted {a : Word} {s : State} (hstopped : s.control ≠ .running)
    (hv : s.mem.validAddr a = true) (w : Word) : hostLoad a w s = s.setMem (s.mem.poke a.toNat w) := by
  rcases hostLoad_cases a w s with ⟨hr | hinvalid, _⟩ | ⟨_, _, e⟩
  · exact absurd hr hstopped
  · exact absurd (hv.symm.trans hinvalid) (by decide)
  · exact e

/-! ## The invariant under the host's transactions (48_interfaces.md R221 to R226) -/

/-- Whether a record explains a fault depends on the capacity of memory, not on its cells. -/
theorem FaultRecord.explains_congr {f : FaultRecord} {m m' : Memory} (h : m.capacity = m'.capacity) (o : OpcodeMap) :
    f.explains m o ↔ f.explains m' o := by
  simp only [FaultRecord.explains, validAddr_congr h]

section GoodHost

variable {s : State} (h : s.Good)
include h

theorem good_hostReset : (hostReset s).Good where
  mem_wf := h.mem_wf
  cond_legal := .inl rfl
  fault_empty _ := rfl
  fault_why hf := nomatch hf

/-- A start is accepted only where the fault record is empty, and leaves it so. -/
theorem good_hostStart (a : Word) : (hostStart a s).Good := by
  rcases hostStart_cases a s with ⟨_, e⟩ | ⟨hf, e⟩ <;> rw [e]
  · exact h
  · exact {
      mem_wf := by simpa using h.mem_wf
      cond_legal := by simpa using h.cond_legal
      fault_empty := fun _ => by simpa using h.fault_empty hf
      fault_why := fun hc => nomatch hc }

/-- An accepted load sets a cell within the capacity, which no fault record speaks of. -/
theorem good_hostLoad (a w : Word) : (hostLoad a w s).Good := by
  rcases hostLoad_cases a w s with ⟨_, e⟩ | ⟨_, hv, e⟩ <;> rw [e]
  · exact h
  · exact {
      mem_wf := wf_poke h.mem_wf (toNat_lt_of_validAddr hv) w
      cond_legal := h.cond_legal
      fault_empty := h.fault_empty
      fault_why := fun hf => (FaultRecord.explains_congr (poke_capacity ..).symm _).1 (h.fault_why hf) }

theorem good_stepRequest : (stepRequest s).Good := by
  rcases stepRequest_cases s with ⟨u, hu, e⟩ | ⟨_, e⟩ <;> rw [e]
  · exact good_step h hu
  · exact h

theorem good_hostStep (m k : Bool) : (hostStep m k s).Good := by
  rcases hostStep_cases m k s with ⟨_, _, e⟩ | ⟨_, e⟩ <;> rw [e]
  · exact h
  · exact good_stepRequest h

end GoodHost

/-! ## The host's reads (48_interfaces.md R224) -/

/-- The causes have different 3-bit codes (60_exceptions.md R231). -/
theorem code_injective : Function.Injective FaultCause.code := by
  intro c d h
  cases c <;> cases d <;> simp [FaultCause.code] at h ⊢

/-- The status outputs determine the control state and the fault record. -/
theorem hostStatus_eq_iff {s t : State} : hostStatus s = hostStatus t ↔ s.control = t.control ∧ s.fault = t.fault := by
  simp only [hostStatus, Prod.mk.injEq, code_injective.eq_iff]
  rw [← FaultRecord.mk.injEq]

end Sys2Proof.Machine

/-! PROOF. The statements on the interfaces (48_interfaces.md), settled. -/

namespace Sys2Proof.Proofs

open Sys2Proof Sys2Proof.Machine Sys2Proof.Claims

/-- Settles O24: each wire carries its exact operand. -/
theorem aluPortsCarryExactOperands : Obligations.AluPortsCarryExactOperands := by
  intro op a b off s
  rw [aluPort, toInt_aluIn1, toInt_aluIn2, aluCall]

/-- Settles O43, by induction on the number of step requests. -/
theorem traceIsStepByStep : Obligations.TraceIsStepByStep := traceOf_eq_filterMap

/-- Settles O49, one transaction at a time. -/
theorem goodIsKeptByHost : Obligations.GoodIsKeptByHost := by
  intro c s h
  cases c with
  | reset => exact good_hostReset h
  | start a => exact good_hostStart h a
  | load a w => exact good_hostLoad h a w
  | step m k => exact good_hostStep h m k

/-- Settles O54: the registers are determined by their reads, and the fault record by the status outputs, because no two
causes share a code. -/
theorem hostReadsShowWholeState : Obligations.HostReadsShowWholeState := by
  refine ⟨fun s => ⟨rfl, rfl, fun _ => rfl, fun _ => rfl⟩, fun s t hstatus hcond hreg hmem => ?_⟩
  obtain ⟨hcontrol, hfault⟩ := hostStatus_eq_iff.1 hstatus
  exact ⟨regs_ext hreg, hcond, hcontrol, hfault, hmem⟩

/-- Settles O8: a load is refused, or it sets one cell. -/
theorem hostLoadsOnlyOutsideRuns : Obligations.HostLoadsOnlyOutsideRuns := by
  refine fun s a w => ⟨fun hr => hostLoad_of_refused (.inl hr) w, fun hv => hostLoad_of_refused (.inr hv) w,
    fun hstopped hv => ?_⟩
  rw [hostLoad_of_accepted hstopped hv, setMem_mem]
  refine ⟨?_, fun x hx => ?_, rfl, rfl, rfl, rfl, rfl, rfl⟩
  · rw [peek_poke, if_pos rfl]
  · rw [peek_poke, if_neg hx]

/-- Settles O25: decode and the port read the same slices of the Word. -/
theorem decoderPortAgrees : Obligations.DecoderPortAgrees := by
  intro m w
  rw [decoderPort_eq]
  refine ⟨(exists_decodeWith_iff m w).symm, fun i hd => ?_⟩
  obtain ⟨hop, hpred, hrt, hrs1, hrs2, hoff⟩ := decodeWith_eq_ok hd
  exact ⟨hop.symm, hpred.symm, hrt.symm, hrs1.symm, hrs2.symm, hoff.symm⟩

end Sys2Proof.Proofs

/-! SUPPORT. What the statements on 60_exceptions.md and 70_reset_and_hazards.md share: the fault an executed
instruction can raise, the registers after reset and boot, the parameters along the host's transactions, and the first
step after a reset. -/

namespace Sys2Proof.Machine

/-! ## The fault of an instruction (60_exceptions.md R232) -/

/-- An executed instruction that makes the machine Faulted is LOAD or STORE, with the cause that is its own. -/
theorem executed_fault_cause {i : Instr} {s : State} (hs : s.control ≠ .faulted)
    (hf : (executed i s).control = .faulted) :
    (i.opcode = .load ∧ (executed i s).fault.cause = .loadOutOfRange) ∨
      (i.opcode = .store ∧ (executed i s).fault.cause = .storeOutOfRange) := by
  rcases executed_control_cases i s with ⟨_, hc, _⟩ | ⟨hop, _, _, e⟩ | ⟨_, _, hc, _⟩
  · exact nomatch hc.symm.trans hf
  · rcases hop with hop | hop
    · exact .inl ⟨hop, by rw [e, if_pos hop]⟩
    · exact .inr ⟨hop, by rw [e, if_neg (by simp [hop])]⟩
  · exact absurd (hc.symm.trans hf) hs

/-! ## The registers after reset and boot (10_state.md R41, 70_reset_and_hazards.md R260) -/

theorem getReg_resetWith_pc (p : Parameters) (n : Nat) : (State.resetWith p n).getReg 15#4 = p.startAddr := by
  rw [getReg_resetWith, if_pos rfl]

theorem getReg_resetWith_of_ne {r : RegIdx} (h : r ≠ 15#4) (p : Parameters) (n : Nat) :
    (State.resetWith p n).getReg r = 0#32 := by
  rw [getReg_resetWith, if_neg h]

/-- A reset differs from the reset state of a fresh machine in memory alone. -/
theorem hostReset_eq_setMem (s : State) :
    hostReset s = (State.resetWith s.params s.mem.capacity).setMem s.mem := rfl

/-- So does a boot. -/
theorem bootWith_eq_setMem (p : Parameters) (n : Nat) (image : List (Word × Word)) :
    bootWith p n image = (State.resetWith p n).setMem ((State.resetWith p n).mem.loadImage image) := rfl

theorem getReg_hostReset_pc (s : State) : (hostReset s).getReg 15#4 = s.params.startAddr := by
  rw [hostReset_eq_setMem, getReg_setMem, getReg_resetWith_pc]

/-! ## Runs from reset (48_interfaces.md R221, 70_reset_and_hazards.md R261) -/

/-- No list of host transactions changes the parameters (10_state.md R38). -/
theorem foldl_hostApply_params (cs : List HostCommand) (s : State) :
    (cs.foldl (fun s c => hostApply c s) s).params = s.params :=
  List.foldlRecOn (motive := fun t => t.params = s.params) cs _ rfl fun t ht c _ =>
    (hostApply_params_capacity c t).1.trans ht

/-- The first step after a reset runs the instruction at the machine's own start address. -/
theorem step_hostReset {s : State} (hv : s.mem.validAddr s.params.startAddr = true) {i : Instr}
    (hd : decodeWith s.params.opcodes (s.mem.peek s.params.startAddr.toNat) = .ok i) :
    step (hostReset s) = exec i (hostReset s) := by
  have hfetch : (hostReset s).mem.read ((hostReset s).getReg 15#4) =
      some (s.mem.peek s.params.startAddr.toNat) := by
    rw [getReg_hostReset_pc, hostReset_mem, read_of_valid hv]
  exact step_of_decode rfl hfetch hd

end Sys2Proof.Machine

/-! PROOF. The statements on faults (60_exceptions.md) and on reset (70_reset_and_hazards.md), settled. -/

namespace Sys2Proof.Proofs

open Sys2Proof Sys2Proof.Machine

/-- Settles O46: a skip keeps the control state, so the instruction was executed. -/
theorem onlyAccessesFault : Obligations.OnlyAccessesFault := by
  intro i s u hs hu hf
  rw [exec_eq] at hu
  cases hu
  rcases gated_cases i.pred s (executed i s) with ⟨hp, e⟩ | ⟨_, e⟩ <;> rw [e] at hf ⊢
  · exact ⟨hp, executed_fault_cause hs hf⟩
  · exact absurd ((skip_control s).symm.trans hf) hs

/-- Settles O51: the parameters of the boot are still those of the machine that is reset. -/
theorem resetReturnsToStartAddress : Obligations.ResetReturnsToStartAddress := by
  intro p n image cs
  have hparams := foldl_hostApply_params cs (bootWith p n image)
  rw [bootWith_params] at hparams
  generalize cs.foldl (fun s c => hostApply c s) (bootWith p n image) = s at hparams ⊢
  subst hparams
  exact ⟨getReg_hostReset_pc s, fun hv _ hd => step_hostReset hv hd⟩

/-- Settles O2: reset, boot and the model's reset state are `resetWith` in everything but memory. -/
theorem resetGivesReadyState : Obligations.ResetGivesReadyState := by
  refine ⟨fun s => ?_, fun p n image => ?_, ?_⟩
  · rw [hostReset_eq_setMem]
    exact ⟨rfl, getReg_resetWith_pc s.params s.mem.capacity,
      fun _ hr => getReg_resetWith_of_ne hr s.params s.mem.capacity, rfl, rfl, rfl, rfl⟩
  · rw [bootWith_eq_setMem]
    exact ⟨rfl, getReg_resetWith_pc p n, fun _ hr => getReg_resetWith_of_ne hr p n, rfl, rfl, rfl⟩
  · exact ⟨rfl, getReg_resetWith_pc .., fun _ hr => getReg_resetWith_of_ne hr .., rfl, rfl⟩

end Sys2Proof.Proofs
